-- ==== Sys2Proof/Word.lean ====
section
/-! DEFINITION. The word types of the block: host words, addresses, transaction words, symbols and node ids. -/

namespace Sys2Proof

/-- A 32-bit host data word, count or weight (00_scope.md R7: DATA_BITS, WEIGHT_BITS). -/
abbrev Word := BitVec 32

/-- A 12-bit host word address (00_scope.md R7: ADDR_BITS). -/
abbrev Addr := BitVec 12

/-- A 45-bit host bus transaction T (30_encoding.md R70). -/
abbrev Transaction := BitVec 45

/-- A symbol, 0..256 (00_scope.md R12): 0..255 literal bytes, 256 the EOF-symbol. -/
abbrev Sym := Fin 257

/-- A node id, 0..512 (00_scope.md R12). -/
abbrev NodeId := Fin 513

/-- A node id as a 10-bit field of a node word or of `tree_rd_idx` (10_state.md R25, 42_tree_output.md R181). -/
abbrev NodePtr := BitVec 10

end Sys2Proof
end

