-- ==== Sys2Proof/Config.lean ====
section
/-! DEFINITION. The fixed parameters of 00_scope.md R7, the parameters the spec leaves OPEN, and the free value of an
unwritten FREQ entry. -/

namespace Sys2Proof.Config

/-- Symbols and leaves (00_scope.md R7). -/
def NSYM : Nat := 257
/-- The end-of-stream symbol (00_scope.md R7). -/
def EOF_SYM : Nat := 256
/-- Merges per build (00_scope.md R7). -/
def NMERGE : Nat := 256
/-- Node store entries (00_scope.md R7). -/
def NNODE : Nat := 513
/-- The root's node id (00_scope.md R7, 41_tree_build.md R149). -/
def ROOT_ID : Nat := 512
/-- Width of a symbol field (00_scope.md R7). -/
def SYM_BITS : Nat := 9
/-- Width of a node id (00_scope.md R7). -/
def ID_BITS : Nat := 10
/-- Width of a count and of a weight (00_scope.md R7, decision D2). -/
def WEIGHT_BITS : Nat := 32
/-- The largest total INIT accepts (00_scope.md R7, 41_tree_build.md R144). -/
def MAX_TOTAL : Nat := 4294967295
/-- Width of a host word address (00_scope.md R7). -/
def ADDR_BITS : Nat := 12
/-- Width of host data (00_scope.md R7). -/
def DATA_BITS : Nat := 32

/-- BUILD_LATENCY, OPEN (00_scope.md R7, 93_implementation_defined.md U3, U12): finite clock cycles; no rule and no
definition of this model depends on it. -/
opaque buildLatency : Nat

/-- HOST_BYTE_ORDER, OPEN (20_memory.md R54, 93_implementation_defined.md U5): the place at which a bridge to a
byte-addressed host puts byte `k` of a word. No rule and no definition of this model depends on it. -/
opaque hostByteLane : Fin 4 → Fin 4

/-- FREE VALUE. What FREQ entry `i` holds while it has not been written since the `r`-th reset (10_state.md R24,
70_reset_and_hazards.md R231, 93_implementation_defined.md U1 "any value": an arbitrary 32-bit number per entry, fixed
until written). Nothing can be proved of it. Log entry 4; safe. -/
opaque unwrittenFreq (r : Nat) (i : Sym) : Word

end Sys2Proof.Config
end

