-- ==== Sys2Proof/Syntax.lean ====
section
/-! DEFINITION. The operations a host transaction can select: one constructor per mnemonic of spec/opcode_table.json. -/

namespace Sys2Proof

/-- The host operations of 40_host_operations.md, in the opcode table's order. Operands are those of 30_encoding.md R75.
The operations that only raise ERR_ADDR or ERR_CMD carry the address or the code that selects them, so that an encoder
can give the word back; bits the block ignores (30_encoding.md R77, R78) are no operands. -/
inductive Instr where
  /-- RD.PARAM, R101. -/
  | rdParam
  /-- RD.CTRL, R102. -/
  | rdCtrl
  /-- CMD.NOP, R103. -/
  | cmdNop
  /-- CMD.BUILD, R104. -/
  | cmdBuild
  /-- CMD.CLEARF, R105. -/
  | cmdClearf
  /-- CMD.CLEARERR, R106. -/
  | cmdClearerr
  /-- CMD.RSVD, R107: the reserved command code. -/
  | cmdRsvd (code : BitVec 4)
  /-- RD.STATUS, R108. -/
  | rdStatus
  /-- RD.ROOT, R109. -/
  | rdRoot
  /-- RD.MERGES, R114. -/
  | rdMerges
  /-- WR.FREQ, R110: the symbol and the count stored. -/
  | wrFreq (i : Sym) (v : Word)
  /-- RD.FREQ, R111: the symbol. -/
  | rdFreq (i : Sym)
  /-- RD.LINK, R115: the node id. -/
  | rdLink (n : NodeId)
  /-- RD.WEIGHT, R116: the node id. -/
  | rdWeight (n : NodeId)
  /-- WR.RO, R113: the read-only address written. -/
  | wrRo (a : Addr)
  /-- RD.UNMAPPED, R112: the unmapped address read. -/
  | rdUnmapped (a : Addr)
  /-- WR.UNMAPPED, R117: the unmapped address written. -/
  | wrUnmapped (a : Addr)
deriving DecidableEq, Repr

end Sys2Proof
end

