-- ==== Sys2Proof/WellFormed.lean ====
section
/-! DEFINITION. Which terms of Instr some transaction word selects. The address ranges are those of the address map,
20_memory.md R52; the decoder works from the bit patterns of 30_encoding.md R72 instead. -/

namespace Sys2Proof

/-- The read-only addresses of 20_memory.md R52: PARAM, STATUS, ROOT, MERGES, NODE_LINK and NODE_WEIGHT. -/
def readOnlyAddr (a : Addr) : Bool :=
  a.toNat == 0x000 || a.toNat == 0x002 || a.toNat == 0x003 || a.toNat == 0x004
    || (0x400 ≤ a.toNat && a.toNat ≤ 0x600) || (0x800 ≤ a.toNat && a.toNat ≤ 0xA00)

/-- The unmapped ranges of 20_memory.md R52. -/
def unmappedAddr (a : Addr) : Bool :=
  (0x005 ≤ a.toNat && a.toNat ≤ 0x1FF) || (0x301 ≤ a.toNat && a.toNat ≤ 0x3FF)
    || (0x601 ≤ a.toNat && a.toNat ≤ 0x7FF) || 0xA01 ≤ a.toNat

/-- The reserved command codes 0x4 to 0xF (30_encoding.md R74). -/
def reservedCode (c : BitVec 4) : Bool := 4 ≤ c.toNat

/-- A term of Instr is well formed when its operands select that operation (30_encoding.md R73). -/
def Instr.wf : Instr → Bool
  | .rdParam => true
  | .rdCtrl => true
  | .cmdNop => true
  | .cmdBuild => true
  | .cmdClearf => true
  | .cmdClearerr => true
  | .cmdRsvd code => reservedCode code
  | .rdStatus => true
  | .rdRoot => true
  | .rdMerges => true
  | .wrFreq _ _ => true
  | .rdFreq _ => true
  | .rdLink _ => true
  | .rdWeight _ => true
  | .wrRo a => readOnlyAddr a
  | .rdUnmapped a => unmappedAddr a
  | .wrUnmapped a => unmappedAddr a

end Sys2Proof
end

