-- ==== Sys2Proof/Decode.lean ====
section
/-! DEFINITION. The decoder of transaction words (30_encoding.md R70 to R78), total on every word, the opcode table as
data (R81), and after them the encoder. -/

namespace Sys2Proof

/-! ## Fields of a transaction word (30_encoding.md R70, R75) -/

/-- WE = T[44]. -/
def weOf (t : Transaction) : Bool := t.getLsbD 44

/-- ADDR = T[43:32]. -/
def addrOf (t : Transaction) : Addr := t.extractLsb' 32 12

/-- DATA = T[31:0]. -/
def dataOf (t : Transaction) : Word := t.extractLsb' 0 32

/-- CMD = DATA[3:0] of a CTRL write (30_encoding.md R75). -/
def cmdOf (d : Word) : BitVec 4 := d.extractLsb' 0 4

/-! ## Address decode (30_encoding.md R72) -/

/-- The regions of 30_encoding.md R72. -/
inductive Region where
  | param | ctrl | status | root | merges | freq | nodeLink | nodeWeight | unmapped
deriving DecidableEq, Repr

/-- The region an address lies in, by the bit patterns of 30_encoding.md R72. -/
def regionOf (a : Addr) : Region :=
  if a = 0x000#12 then .param
  else if a = 0x001#12 then .ctrl
  else if a = 0x002#12 then .status
  else if a = 0x003#12 then .root
  else if a = 0x004#12 then .merges
  else if a.extractLsb' 8 4 = 0b0010#4 ∨ a = 0x300#12 then .freq
  else if a.extractLsb' 9 3 = 0b010#3 ∨ a = 0x600#12 then .nodeLink
  else if a.extractLsb' 9 3 = 0b100#3 ∨ a = 0xA00#12 then .nodeWeight
  else .unmapped

/-- Base of the FREQ window (20_memory.md R53). -/
def freqBase : Addr := 0x200#12
/-- Base of the NODE_LINK window (20_memory.md R53). -/
def linkBase : Addr := 0x400#12
/-- Base of the NODE_WEIGHT window (20_memory.md R53). -/
def weightBase : Addr := 0x800#12

/-- The symbol an address of the FREQ window names: `a - 0x200` (20_memory.md R53). -/
def freqIndex (a : Addr) : Sym := Fin.ofNat 257 (a - freqBase).toNat

/-- The node id an address of the NODE_LINK window names: `a - 0x400` (20_memory.md R53). -/
def linkIndex (a : Addr) : NodeId := Fin.ofNat 513 (a - linkBase).toNat

/-- The node id an address of the NODE_WEIGHT window names: `a - 0x800` (20_memory.md R53). -/
def weightIndex (a : Addr) : NodeId := Fin.ofNat 513 (a - weightBase).toNat

/-! ## Operation selection (30_encoding.md R73, R74) -/

/-- The operation a CTRL write selects by its command code (30_encoding.md R74). -/
def decodeCommand (c : BitVec 4) : Instr :=
  if c = 0x0#4 then .cmdNop
  else if c = 0x1#4 then .cmdBuild
  else if c = 0x2#4 then .cmdClearf
  else if c = 0x3#4 then .cmdClearerr
  else .cmdRsvd c

/-- The operation a read selects (30_encoding.md R73, rows with WE = 0). -/
def decodeRead (a : Addr) : Instr :=
  match regionOf a with
  | .param => .rdParam
  | .ctrl => .rdCtrl
  | .status => .rdStatus
  | .root => .rdRoot
  | .merges => .rdMerges
  | .freq => .rdFreq (freqIndex a)
  | .nodeLink => .rdLink (linkIndex a)
  | .nodeWeight => .rdWeight (weightIndex a)
  | .unmapped => .rdUnmapped a

/-- The operation a write selects (30_encoding.md R73, rows with WE = 1). -/
def decodeWrite (a : Addr) (d : Word) : Instr :=
  match regionOf a with
  | .param => .wrRo a
  | .ctrl => decodeCommand (cmdOf d)
  | .status => .wrRo a
  | .root => .wrRo a
  | .merges => .wrRo a
  | .freq => .wrFreq (freqIndex a) d
  | .nodeLink => .wrRo a
  | .nodeWeight => .wrRo a
  | .unmapped => .wrUnmapped a

/-- The decoder: total, since every 45-bit word selects exactly one operation (30_encoding.md R73). -/
def decode (t : Transaction) : Instr :=
  if weOf t then decodeWrite (addrOf t) (dataOf t) else decodeRead (addrOf t)

/-- Why a number is no transaction word. -/
inductive DecodeError where
  /-- The number needs more than 45 bits (30_encoding.md R70: every transaction has this one length). -/
  | wordTooWide
deriving DecidableEq, Repr

/-- The decoder on any number: a number of more than 45 bits is rejected by name. -/
def decodeBits (w : Nat) : Except DecodeError Instr :=
  if w < 2 ^ 45 then .ok (decode (BitVec.ofNat 45 w)) else .error .wordTooWide

/-- The instruction the decoder reads from an opcode-table word of `nbits` bits: the bits above `nbits` are 0, and the
whole transaction is one word, so the table's numbering and T's are the same. -/
def decodeTableWord (nbits w : Nat) : Option Instr :=
  match decodeBits (w % 2 ^ nbits) with
  | .ok i => some i
  | .error _ => none

/-! ## The opcode table as data (30_encoding.md R81) -/

/-- The mnemonics of spec/opcode_table.json. -/
inductive Mnemonic where
  | rdParam
  | rdCtrl
  | cmdNop
  | cmdBuild
  | cmdClearf
  | cmdClearerr
  | cmdRsvd
  | rdStatus
  | rdRoot
  | rdMerges
  | wrFreq
  | rdFreq
  | rdLink
  | rdWeight
  | wrRo
  | rdUnmapped
  | wrUnmapped
deriving DecidableEq, Repr

/-- The mnemonic of an instruction. -/
def Instr.mnemonic : Instr → Mnemonic
  | .rdParam => .rdParam
  | .rdCtrl => .rdCtrl
  | .cmdNop => .cmdNop
  | .cmdBuild => .cmdBuild
  | .cmdClearf => .cmdClearf
  | .cmdClearerr => .cmdClearerr
  | .cmdRsvd _ => .cmdRsvd
  | .rdStatus => .rdStatus
  | .rdRoot => .rdRoot
  | .rdMerges => .rdMerges
  | .wrFreq _ _ => .wrFreq
  | .rdFreq _ => .rdFreq
  | .rdLink _ => .rdLink
  | .rdWeight _ => .rdWeight
  | .wrRo _ => .wrRo
  | .rdUnmapped _ => .rdUnmapped
  | .wrUnmapped _ => .wrUnmapped

/-- One row of the opcode table: a row matches T when `T &&& mask = pattern` (30_encoding.md R81). -/
structure OpcodeRow where
  mnemonic : Mnemonic
  pattern : Transaction
  mask : Transaction
  priority : Nat
deriving DecidableEq, Repr

/-- `(T & mask) == match` (30_encoding.md R81). -/
def OpcodeRow.selects (r : OpcodeRow) (t : Transaction) : Bool := t &&& r.mask == r.pattern

/-- The priority-0 rows that read, command or use the FREQ window, in the table's order. -/
def opcodeRowsRegisters : List OpcodeRow :=
  [ ⟨.rdParam, 0x000000000000#45, 0x1FFF00000000#45, 0⟩
  , ⟨.rdCtrl, 0x000100000000#45, 0x1FFF00000000#45, 0⟩
  , ⟨.cmdNop, 0x100100000000#45, 0x1FFF0000000F#45, 0⟩
  , ⟨.cmdBuild, 0x100100000001#45, 0x1FFF0000000F#45, 0⟩
  , ⟨.cmdClearf, 0x100100000002#45, 0x1FFF0000000F#45, 0⟩
  , ⟨.cmdClearerr, 0x100100000003#45, 0x1FFF0000000F#45, 0⟩
  , ⟨.cmdRsvd, 0x100100000004#45, 0x1FFF0000000C#45, 0⟩
  , ⟨.cmdRsvd, 0x100100000008#45, 0x1FFF00000008#45, 0⟩
  , ⟨.rdStatus, 0x000200000000#45, 0x1FFF00000000#45, 0⟩
  , ⟨.rdRoot, 0x000300000000#45, 0x1FFF00000000#45, 0⟩
  , ⟨.rdMerges, 0x000400000000#45, 0x1FFF00000000#45, 0⟩
  , ⟨.wrFreq, 0x120000000000#45, 0x1F0000000000#45, 0⟩
  , ⟨.wrFreq, 0x130000000000#45, 0x1FFF00000000#45, 0⟩
  , ⟨.rdFreq, 0x020000000000#45, 0x1F0000000000#45, 0⟩
  , ⟨.rdFreq, 0x030000000000#45, 0x1FFF00000000#45, 0⟩ ]

/-- The priority-0 rows of the node windows and of the read-only addresses, in the table's order. -/
def opcodeRowsNodes : List OpcodeRow :=
  [ ⟨.rdLink, 0x040000000000#45, 0x1E0000000000#45, 0⟩
  , ⟨.rdLink, 0x060000000000#45, 0x1FFF00000000#45, 0⟩
  , ⟨.rdWeight, 0x080000000000#45, 0x1E0000000000#45, 0⟩
  , ⟨.rdWeight, 0x0A0000000000#45, 0x1FFF00000000#45, 0⟩
  , ⟨.wrRo, 0x100000000000#45, 0x1FFF00000000#45, 0⟩
  , ⟨.wrRo, 0x100200000000#45, 0x1FFF00000000#45, 0⟩
  , ⟨.wrRo, 0x100300000000#45, 0x1FFF00000000#45, 0⟩
  , ⟨.wrRo, 0x100400000000#45, 0x1FFF00000000#45, 0⟩
  , ⟨.wrRo, 0x140000000000#45, 0x1E0000000000#45, 0⟩
  , ⟨.wrRo, 0x160000000000#45, 0x1FFF00000000#45, 0⟩
  , ⟨.wrRo, 0x180000000000#45, 0x1E0000000000#45, 0⟩
  , ⟨.wrRo, 0x1A0000000000#45, 0x1FFF00000000#45, 0⟩ ]

/-- The priority-1 rows, used only if no priority-0 row matches (30_encoding.md R73). -/
def opcodeRowsDefault : List OpcodeRow :=
  [ ⟨.rdUnmapped, 0x000000000000#45, 0x100000000000#45, 1⟩
  , ⟨.wrUnmapped, 0x100000000000#45, 0x100000000000#45, 1⟩ ]

/-- spec/opcode_table.json, all 29 rows. -/
def opcodeTable : List OpcodeRow := opcodeRowsRegisters ++ opcodeRowsNodes ++ opcodeRowsDefault

/-- The rows of one priority that match a word. -/
def matchingRows (p : Nat) (t : Transaction) : List OpcodeRow :=
  opcodeTable.filter fun r => r.priority == p && r.selects t

/-- The table's reading of a word: the priority-0 rows first, then the priority-1 rows (30_encoding.md R73). -/
def tableLookup (t : Transaction) : Option Mnemonic :=
  match matchingRows 0 t with
  | r :: _ => some r.mnemonic
  | [] =>
    match matchingRows 1 t with
    | r :: _ => some r.mnemonic
    | [] => none

/-! ## The encoder (30_encoding.md R70, R75) -/

/-- The transaction word WE ++ ADDR ++ DATA (30_encoding.md R70). -/
def assemble (we : Bool) (a : Addr) (d : Word) : Transaction := BitVec.ofBool we ++ a ++ d

/-- The address of FREQ[i] (20_memory.md R52). -/
def freqAddr (i : Sym) : Addr := freqBase + BitVec.ofNat 12 i.val
/-- The address of NODE_LINK[n] (20_memory.md R52). -/
def linkAddr (n : NodeId) : Addr := linkBase + BitVec.ofNat 12 n.val
/-- The address of NODE_WEIGHT[n] (20_memory.md R52). -/
def weightAddr (n : NodeId) : Addr := weightBase + BitVec.ofNat 12 n.val

/-- The WE bit of an instruction (30_encoding.md R73). -/
def Instr.we : Instr → Bool
  | .rdParam => false
  | .rdCtrl => false
  | .cmdNop => true
  | .cmdBuild => true
  | .cmdClearf => true
  | .cmdClearerr => true
  | .cmdRsvd _ => true
  | .rdStatus => false
  | .rdRoot => false
  | .rdMerges => false
  | .wrFreq _ _ => true
  | .rdFreq _ => false
  | .rdLink _ => false
  | .rdWeight _ => false
  | .wrRo _ => true
  | .rdUnmapped _ => false
  | .wrUnmapped _ => true

/-- The ADDR field of an instruction (20_memory.md R52). -/
def Instr.address : Instr → Addr
  | .rdParam => 0x000#12
  | .rdCtrl => 0x001#12
  | .cmdNop => 0x001#12
  | .cmdBuild => 0x001#12
  | .cmdClearf => 0x001#12
  | .cmdClearerr => 0x001#12
  | .cmdRsvd _ => 0x001#12
  | .rdStatus => 0x002#12
  | .rdRoot => 0x003#12
  | .rdMerges => 0x004#12
  | .wrFreq i _ => freqAddr i
  | .rdFreq i => freqAddr i
  | .rdLink n => linkAddr n
  | .rdWeight n => weightAddr n
  | .wrRo a => a
  | .rdUnmapped a => a
  | .wrUnmapped a => a

/-- The DATA field of an instruction; the bits the block ignores are written as 0 (30_encoding.md R70, R77, R78). -/
def Instr.data : Instr → Word
  | .rdParam => 0#32
  | .rdCtrl => 0#32
  | .cmdNop => 0#32
  | .cmdBuild => 1#32
  | .cmdClearf => 2#32
  | .cmdClearerr => 3#32
  | .cmdRsvd code => code.setWidth 32
  | .rdStatus => 0#32
  | .rdRoot => 0#32
  | .rdMerges => 0#32
  | .wrFreq _ v => v
  | .rdFreq _ => 0#32
  | .rdLink _ => 0#32
  | .rdWeight _ => 0#32
  | .wrRo _ => 0#32
  | .rdUnmapped _ => 0#32
  | .wrUnmapped _ => 0#32

/-- The transaction word of an instruction. -/
def encode (i : Instr) : Transaction := assemble i.we i.address i.data

end Sys2Proof
end

