-- ==== Sys2Proof/Machine/State.lean ====
section
/-! DEFINITION. The state of huffman_tree_builder as plain data (10_state.md R20), the reasons a step can stop, and the
state after reset (10_state.md R39). -/

namespace Sys2Proof.Machine

/-- `STATE`, the sequencer's phase (10_state.md R22). The 2-bit encoding has three legal values and a fourth that is
never held; it is kept as a constructor so that 93_implementation_defined.md U9 can be stated (log entry 7). -/
inductive Phase where
  /-- 0: waiting for the host. -/
  | idle
  /-- 1: the CLEAR step is due. -/
  | clearing
  /-- 2: INIT or a MERGE step is due. -/
  | building
  /-- Encoding 3: "never held" (10_state.md R22). -/
  | reserved
deriving DecidableEq, Repr

/-- One entry of FREQ with its written-ness (10_state.md R24: "a property a model must track"). An unwritten entry
holds the free value `Config.unwrittenFreq` (log entry 4). -/
inductive FreqEntry where
  /-- Not written since the last reset. -/
  | unwritten
  /-- Written by an accepted FREQ write or by a CLEAR step. -/
  | written (count : Word)
deriving DecidableEq, Repr

/-- One entry of the node store, every field at the width of 10_state.md R25. DESIGN CHOICE: these widths add up to 64
bits, where the table of R20 says 63 for the same fields; the model follows the fields. Log entry 21. -/
structure Node where
  valid : Bool
  leaf : Bool
  queued : Bool
  symbol : BitVec 9
  left : NodePtr
  right : NodePtr
  weight : Word
deriving DecidableEq, Repr

/-- An entry right after reset: VALID and QUEUED are 0 (10_state.md R39); the other fields are unspecified there and
unobservable (10_state.md R26); the model starts them at 0. DESIGN CHOICE, unsafe for claims about raw fields of an
invalid entry; log entry 6. -/
def Node.blank : Node :=
  { valid := false, leaf := false, queued := false, symbol := 0#9, left := 0#10, right := 0#10, weight := 0#32 }

/-- One move of the environment or of the sequencer: the interleaving of 20_memory.md R60 is a list of these. -/
inductive Input where
  /-- The host's next transaction T takes effect (30_encoding.md R70). -/
  | host (t : Transaction)
  /-- The sequencer takes its turn (41_tree_build.md R140). -/
  | sequencer
  /-- The tree consumer reads the port with this `tree_rd_idx` (42_tree_output.md R181). -/
  | consumer (idx : NodePtr)
  /-- `rst` is sampled high (70_reset_and_hazards.md R230). -/
  | reset
deriving DecidableEq, Repr

/-- What one consumer read returns: `tree_rd_link` and `tree_rd_weight` (42_tree_output.md R181). -/
structure PortOut where
  link : Word
  weight : Word
deriving DecidableEq, Repr

/-- The state. The first ten fields are the block's, exactly those of 10_state.md R20; the last four are the model's own. -/
structure State where
  /-- `STATE` (10_state.md R22). -/
  phase : Phase
  /-- `INIT_DONE` (10_state.md R22). -/
  initDone : Bool
  /-- `MERGES` (10_state.md R23). -/
  merges : BitVec 9
  /-- `FREQ[0..256]` (10_state.md R24). -/
  freq : Vector FreqEntry 257
  /-- `NODE[0..512]` (10_state.md R25). -/
  nodes : Vector Node 513
  /-- `TREE_VALID` (10_state.md R28). -/
  treeValid : Bool
  /-- `ERR_OVF` (10_state.md R29). -/
  errOvf : Bool
  /-- `ERR_CMD` (10_state.md R29). -/
  errCmd : Bool
  /-- `ERR_BUSY` (10_state.md R29). -/
  errBusy : Bool
  /-- `ERR_ADDR` (10_state.md R29). -/
  errAddr : Bool
  /-- The moves still to come, first first (20_memory.md R60). Not state of the block (10_state.md R38). Log entry 1. -/
  inputs : List Input
  /-- RDATA of the last host transaction (30_encoding.md R70, R71); `none` after a write. Log entry 9. -/
  rdata : Option Word
  /-- What the last consumer step returned (42_tree_output.md R181). Log entry 10. -/
  portOut : Option PortOut
  /-- How many resets were taken since `State.reset`: each draws fresh free values for FREQ. Log entry 5. -/
  resets : Nat
deriving DecidableEq, Repr

/-- The machine right after reset (10_state.md R39, 70_reset_and_hazards.md R230, R232). -/
def State.reset : State where
  phase := .idle
  initDone := false
  merges := 0#9
  freq := Vector.replicate 257 .unwritten
  nodes := Vector.replicate 513 Node.blank
  treeValid := false
  errOvf := false
  errCmd := false
  errBusy := false
  errAddr := false
  inputs := []
  rdata := none
  portOut := none
  resets := 0

/-- Why a step stops. The block itself has no faults (60_exceptions.md R200, R201): each of these marks a state that
no run from reset reaches. -/
inductive Fault where
  /-- Raised by the step when `STATE` holds the encoding 3 (93_implementation_defined.md U9, treatment `fault`). Safe. -/
  | phaseEncodingThree
  /-- Raised by a MERGE step that finds fewer than two queued nodes; 41_tree_build.md R146: "Both always exist". Safe. -/
  | queueUnderflow
  /-- Raised by a MERGE step whose sum needs more than 32 bits; 41_tree_build.md R150: "It can never wrap". Safe. -/
  | mergeOverflow
deriving DecidableEq, Repr

/-- Why the model has no meaning for an instruction. -/
inductive Refusal where
  /-- Raised by `exec` alone, for an instruction that has no meaning yet. Safe. -/
  | notModelled (mnemonic : String)
deriving DecidableEq, Repr

/-- The outcomes of a step of this machine. -/
abbrev Result := Host.Outcome State Fault Refusal

end Sys2Proof.Machine
end

