-- ==== Sys2Proof/Machine/Flags.lean ====
section
/-! DEFINITION. The four sticky error flags (10_state.md R29, 60_exceptions.md R202) and the status word (10_state.md R32). -/

namespace Sys2Proof.Machine

/-- The error flags of 10_state.md R29. -/
inductive ErrorFlag where
  | ovf | cmd | busy | addr
deriving DecidableEq, Repr

/-- The cause code: the flag's bit position in STATUS (60_exceptions.md R202). -/
def ErrorFlag.causeCode : ErrorFlag → Nat
  | .ovf => 4
  | .cmd => 5
  | .busy => 6
  | .addr => 7

/-- The flag's present value. -/
def State.flag (s : State) : ErrorFlag → Bool
  | .ovf => s.errOvf
  | .cmd => s.errCmd
  | .busy => s.errBusy
  | .addr => s.errAddr

/-- Set one sticky flag; a flag already set stays 1 (60_exceptions.md R201). -/
def State.setFlag (s : State) : ErrorFlag → State
  | .ovf => { s with errOvf := true }
  | .cmd => { s with errCmd := true }
  | .busy => { s with errBusy := true }
  | .addr => { s with errAddr := true }

/-- Clear the four error flags at once (40_host_operations.md R106, 60_exceptions.md R207). -/
def State.clearFlags (s : State) : State :=
  { s with errOvf := false, errCmd := false, errBusy := false, errAddr := false }

/-- The 2-bit encoding of `STATE` (10_state.md R22). -/
def Phase.code : Phase → BitVec 2
  | .idle => 0#2
  | .clearing => 1#2
  | .building => 2#2
  | .reserved => 3#2

/-- STATUS: 24 zero bits, ERR_ADDR, ERR_BUSY, ERR_CMD, ERR_OVF, a zero bit, TREE_VALID, STATE (10_state.md R32,
40_host_operations.md R108). -/
def statusWord (s : State) : Word :=
  0#24 ++ BitVec.ofBool s.errAddr ++ BitVec.ofBool s.errBusy ++ BitVec.ofBool s.errCmd ++ BitVec.ofBool s.errOvf
    ++ 0#1 ++ BitVec.ofBool s.treeValid ++ s.phase.code

end Sys2Proof.Machine
end

