-- ==== Sys2Proof/Machine/Operands.lean ====
section
/-! DEFINITION. What an operand names and what a read of it gives: FREQ entries, node words with their gating, the
constant and computed registers, and the node id of the tree read port. -/

namespace Sys2Proof.Machine

/-- The value of FREQ[i] (10_state.md R37): the stored count, or the free value of an entry not written since the last
reset (93_implementation_defined.md U1, log entry 4). -/
def freqValue (s : State) (i : Sym) : Word :=
  match s.freq[i] with
  | .written v => v
  | .unwritten => Config.unwrittenFreq s.resets i

/-- The node word of an entry, before gating: VALID, LEAF, QUEUED, SYMBOL, RIGHT, LEFT from bit 31 down
(10_state.md R26, R35). -/
def packNode (e : Node) : Word :=
  1#1 ++ BitVec.ofBool e.leaf ++ BitVec.ofBool e.queued ++ e.symbol ++ e.right ++ e.left

/-- `link(n)` for an entry: its node word, gated by VALID (10_state.md R26). -/
def nodeLink (e : Node) : Word := if e.valid then packNode e else 0#32

/-- `weight(n)` for an entry, gated by VALID (10_state.md R26, R36). -/
def nodeWeight (e : Node) : Word := if e.valid then e.weight else 0#32

/-- `link(n)` (10_state.md R26, R35). -/
def link (s : State) (n : NodeId) : Word := nodeLink s.nodes[n]

/-- `weight(n)` (10_state.md R26, R36). -/
def weight (s : State) (n : NodeId) : Word := nodeWeight s.nodes[n]

/-- PARAM: NSYM in [9:0], NNODE in [19:10], WEIGHT_BITS in [25:20], zeros above (10_state.md R30). -/
def paramWord : Word :=
  0#6 ++ BitVec.ofNat 6 Config.WEIGHT_BITS ++ BitVec.ofNat 10 Config.NNODE ++ BitVec.ofNat 10 Config.NSYM

/-- What a read of CTRL returns (10_state.md R31). -/
def ctrlWord : Word := 0#32

/-- The root's node id while the tree is valid, else 0 (10_state.md R33, 42_tree_output.md R180). -/
def rootId (s : State) : NodePtr := if s.treeValid then BitVec.ofNat 10 Config.ROOT_ID else 0#10

/-- ROOT (10_state.md R33). -/
def rootWord (s : State) : Word := (rootId s).setWidth 32

/-- MERGES, zero-extended (10_state.md R34). -/
def mergesWord (s : State) : Word := s.merges.setWidth 32

/-- The node a `tree_rd_idx` selects; ids 513 to 1023 name none (42_tree_output.md R181). -/
def portNode (idx : NodePtr) : Option NodeId :=
  if h : idx.toNat < 513 then some ⟨idx.toNat, h⟩ else none

end Sys2Proof.Machine
end

