-- ==== Sys2Proof/Machine/Ops.lean ====
section
/-! DEFINITION. The shared operations: completing a transaction, raising an error (this block's only exception) and
clearing the flags (its return), writing FREQ, and updating the node store. -/

namespace Sys2Proof.Machine

/-- A vector given entry by entry. Irreducible, so that elaboration never runs through the entries. -/
@[irreducible] def tabulate {α : Type} {n : Nat} (f : Fin n → α) : Vector α n :=
  ⟨((List.finRange n).map f).toArray, by simp⟩

/-! ## Completing a host transaction (30_encoding.md R70, R71) -/

/-- A read completes with RDATA = `v` and changes nothing else (20_memory.md R57). -/
def respond (v : Word) (s : State) : State := { s with rdata := some v }

/-- A write completes: there is no response word. -/
def acknowledge (s : State) : State := { s with rdata := none }

/-! ## Errors (60_exceptions.md R200, R201): what this block has in place of taking an exception -/

/-- `raise` in a write: the sticky flag is set, nothing else changes, and the transaction completes (60_exceptions.md R201). -/
def raiseOnWrite (e : ErrorFlag) (s : State) : State := acknowledge (s.setFlag e)

/-- `raise` in a read: as in a write, and RDATA is 0 (60_exceptions.md R201, 40_host_operations.md R100). -/
def raiseOnRead (e : ErrorFlag) (s : State) : State := respond 0#32 (s.setFlag e)

/-- CLEAR_ERR: what this block has in place of a return from an exception (60_exceptions.md R207). -/
def clearErrors (s : State) : State := acknowledge s.clearFlags

/-- The busy check (40_host_operations.md R100, R104, R105, R110): ERR_BUSY unless `STATE` is IDLE, else the effect. -/
def whenIdle (effect : State → State) (s : State) : State :=
  if s.phase = .idle then acknowledge (effect s) else raiseOnWrite .busy s

/-! ## FREQ -/

/-- `FREQ[i] <- v`; the entry counts as written (40_host_operations.md R110). -/
def writeFreq (i : Sym) (v : Word) (s : State) : State :=
  { s with freq := s.freq.set i (.written v) }

/-! ## The node store -/

/-- `NODE[n].VALID <- 0; NODE[n].QUEUED <- 0` for one entry; its other fields stay (40_host_operations.md R104). -/
def invalidateNode (e : Node) : Node := { e with valid := false, queued := false }

/-- Every entry invalidated (40_host_operations.md R104, 70_reset_and_hazards.md R230). -/
def invalidateStore (nodes : Vector Node 513) : Vector Node 513 :=
  ⟨(nodes.toList.map invalidateNode).toArray, by simp⟩

/-- Update the entry of one node id; an id above 512 names no entry. -/
def updateNode (n : Nat) (f : Node → Node) (nodes : Vector Node 513) : Vector Node 513 :=
  if h : n < 513 then nodes.set n (f nodes[n]) else nodes

/-! ## Commands (40_host_operations.md R104, R105) -/

/-- An accepted BUILD (40_host_operations.md R104). -/
def startBuild (s : State) : State :=
  { s with phase := .building, initDone := false, merges := 0#9, treeValid := false, errOvf := false,
           nodes := invalidateStore s.nodes }

/-- An accepted CLEAR_FREQ (40_host_operations.md R105). -/
def startClear (s : State) : State := { s with phase := .clearing }

end Sys2Proof.Machine
end

