-- ==== Sys2Proof/Machine/AccessErrors.lean ====
section
/-! DEFINITION. Access errors: RD.UNMAPPED, WR.RO, WR.UNMAPPED (40_host_operations.md section 6). The address only
selects the operation; nothing records it (60_exceptions.md R201). -/

namespace Sys2Proof.Machine

/-- RD.UNMAPPED, R112: RDATA 0 and ERR_ADDR. -/
def execRdUnmapped (_a : Addr) (s : State) : Result := .next (raiseOnRead .addr s)

/-- WR.RO, R113: ERR_ADDR, before any busy condition. -/
def execWrRo (_a : Addr) (s : State) : Result := .next (raiseOnWrite .addr s)

/-- WR.UNMAPPED, R117: ERR_ADDR. -/
def execWrUnmapped (_a : Addr) (s : State) : Result := .next (raiseOnWrite .addr s)

end Sys2Proof.Machine
end

