-- ==== Sys2Proof/Machine/Commands.lean ====
section
/-! DEFINITION. CTRL writes: CMD.NOP, CMD.BUILD, CMD.CLEARF, CMD.CLEARERR, CMD.RSVD (40_host_operations.md section 3). -/

namespace Sys2Proof.Machine

/-- CMD.NOP, R103, in any STATE. -/
def execCmdNop (s : State) : Result := .next (acknowledge s)

/-- CMD.BUILD, R104: ERR_BUSY unless IDLE. -/
def execCmdBuild (s : State) : Result := .next (whenIdle startBuild s)

/-- CMD.CLEARF, R105: ERR_BUSY unless IDLE. -/
def execCmdClearf (s : State) : Result := .next (whenIdle startClear s)

/-- CMD.CLEARERR, R106, in any STATE. -/
def execCmdClearerr (s : State) : Result := .next (clearErrors s)

/-- CMD.RSVD, R107: ERR_CMD whatever the reserved code and in any STATE. -/
def execCmdRsvd (_code : BitVec 4) (s : State) : Result := .next (raiseOnWrite .cmd s)

end Sys2Proof.Machine
end

