-- ==== Sys2Proof/Machine/FreqWindow.lean ====
section
/-! DEFINITION. The frequency window: WR.FREQ and RD.FREQ (40_host_operations.md section 4). -/

namespace Sys2Proof.Machine

/-- WR.FREQ, R110: ERR_BUSY unless IDLE, and then the write is lost. -/
def execWrFreq (i : Sym) (v : Word) (s : State) : Result := .next (whenIdle (writeFreq i v) s)

/-- RD.FREQ, R111, in any STATE. -/
def execRdFreq (i : Sym) (s : State) : Result := .next (respond (freqValue s i) s)

end Sys2Proof.Machine
end

