-- ==== Sys2Proof/Machine/NodeWindows.lean ====
section
/-! DEFINITION. The node windows: RD.LINK and RD.WEIGHT (40_host_operations.md section 5). -/

namespace Sys2Proof.Machine

/-- RD.LINK, R115, in any STATE. -/
def execRdLink (n : NodeId) (s : State) : Result := .next (respond (link s n) s)

/-- RD.WEIGHT, R116, in any STATE. -/
def execRdWeight (n : NodeId) (s : State) : Result := .next (respond (weight s n) s)

end Sys2Proof.Machine
end

