-- ==== Sys2Proof/Machine/RegisterReads.lean ====
section
/-! DEFINITION. Register reads: RD.PARAM, RD.CTRL, RD.STATUS, RD.ROOT, RD.MERGES (40_host_operations.md section 2). -/

namespace Sys2Proof.Machine

/-- RD.PARAM, R101. -/
def execRdParam (s : State) : Result := .next (respond paramWord s)

/-- RD.CTRL, R102: reading the write-only register is no error and returns 0. -/
def execRdCtrl (s : State) : Result := .next (respond ctrlWord s)

/-- RD.STATUS, R108: the read clears nothing. -/
def execRdStatus (s : State) : Result := .next (respond (statusWord s) s)

/-- RD.ROOT, R109. -/
def execRdRoot (s : State) : Result := .next (respond (rootWord s) s)

/-- RD.MERGES, R114. -/
def execRdMerges (s : State) : Result := .next (respond (mergesWord s) s)

end Sys2Proof.Machine
end

