-- ==== Sys2Proof/Machine/Dispatch.lean ====
section
/-! DEFINITION. One arm per host operation (30_encoding.md R73). -/

namespace Sys2Proof.Machine

/-- What a host transaction that selects `i` does: one atomic transition (40_host_operations.md R100). -/
def exec (i : Instr) (s : State) : Host.Outcome State Fault Refusal :=
  match i with
  | .rdParam => Sys2Proof.Machine.execRdParam s
  | .rdCtrl => Sys2Proof.Machine.execRdCtrl s
  | .cmdNop => Sys2Proof.Machine.execCmdNop s
  | .cmdBuild => Sys2Proof.Machine.execCmdBuild s
  | .cmdClearf => Sys2Proof.Machine.execCmdClearf s
  | .cmdClearerr => Sys2Proof.Machine.execCmdClearerr s
  | .cmdRsvd code => Sys2Proof.Machine.execCmdRsvd code s
  | .rdStatus => Sys2Proof.Machine.execRdStatus s
  | .rdRoot => Sys2Proof.Machine.execRdRoot s
  | .rdMerges => Sys2Proof.Machine.execRdMerges s
  | .wrFreq sym v => Sys2Proof.Machine.execWrFreq sym v s
  | .rdFreq sym => Sys2Proof.Machine.execRdFreq sym s
  | .rdLink n => Sys2Proof.Machine.execRdLink n s
  | .rdWeight n => Sys2Proof.Machine.execRdWeight n s
  | .wrRo a => Sys2Proof.Machine.execWrRo a s
  | .rdUnmapped a => Sys2Proof.Machine.execRdUnmapped a s
  | .wrUnmapped a => Sys2Proof.Machine.execWrUnmapped a s

end Sys2Proof.Machine
end

