-- ==== Sys2Proof/Machine/Selection.lean ====
section
/-! DEFINITION. The priority structure: keys, the queue Q of the node store, and the selection of A and B
(10_state.md R27, 41_tree_build.md R145, R146). -/

namespace Sys2Proof.Machine

/-- `key(n) = (NODE[n].WEIGHT, n)` (00_scope.md R9). -/
structure Key where
  weight : Nat
  id : Nat
deriving DecidableEq, Repr

/-- Keys compare lexicographically: weight first, then node id (00_scope.md R9, 41_tree_build.md R145). -/
def Key.lt (a b : Key) : Bool := decide (a.weight < b.weight) || (a.weight == b.weight && decide (a.id < b.id))

/-- `argmin` of a list of keys (00_scope.md R9). -/
def leastKey : List Key → Option Key
  | [] => none
  | x :: xs =>
    match leastKey xs with
    | none => some x
    | some m => if m.lt x then some m else some x

/-- The keys without those of one node id. -/
def withoutId (n : Nat) (q : List Key) : List Key := q.filter fun x => !(x.id == n)

/-- A is the least key of Q, B the least of the rest (41_tree_build.md R146). -/
def selectPair (q : List Key) : Option (Key × Key) :=
  match leastKey q with
  | none => none
  | some a =>
    match leastKey (withoutId a.id q) with
    | none => none
    | some b => some (a, b)

/-- The key of one store entry while it is in the priority structure (10_state.md R27). -/
def queuedKey (e : Node) (n : Nat) : Option Key :=
  if e.valid && e.queued then some { weight := e.weight.toNat, id := n } else none

/-- Q: the keys of the entries with VALID = 1 and QUEUED = 1 (10_state.md R27). -/
def queueOf (nodes : Vector Node 513) : List Key :=
  nodes.toList.zipIdx.filterMap fun p => queuedKey p.1 p.2

end Sys2Proof.Machine
end

