-- ==== Sys2Proof/Machine/Sequencer.lean ====
section
/-! DEFINITION. The sequencer's steps CLEAR, INIT and MERGE with its completion (41_tree_build.md R140 to R148). -/

namespace Sys2Proof.Machine

/-- The three kinds of step (41_tree_build.md R140). -/
inductive SequencerStep where
  | clear | init | merge
deriving DecidableEq, Repr

/-- The one step that is enabled, if any (41_tree_build.md R140). -/
def enabledStep (s : State) : Option SequencerStep :=
  match s.phase with
  | .idle => none
  | .clearing => some .clear
  | .building =>
    if s.initDone = false then some .init
    else if s.merges.toNat < 256 then some .merge
    else none
  | .reserved => none

/-- The CLEAR step, R141: every FREQ entry becomes 0 and counts as written. -/
def clearStep (s : State) : State :=
  { s with freq := Vector.replicate 257 (.written 0#32), phase := .idle }

/-- The INIT total, exact (41_tree_build.md R144). Irreducible, so that elaboration never evaluates the sum. -/
@[irreducible] def freqTotal (s : State) : Nat := ((List.finRange 257).map fun i => (freqValue s i).toNat).sum

/-- The leaf INIT creates for a symbol (41_tree_build.md R143, R144). -/
def leafNode (queued : Bool) (i : Nat) (w : Word) : Node :=
  { valid := true, leaf := true, queued := queued, symbol := BitVec.ofNat 9 i, left := 0#10, right := 0#10, weight := w }

/-- The store with the 257 leaves written from FREQ; the entries 257 to 512 stay (41_tree_build.md R142, R144). -/
def writeLeaves (queued : Bool) (s : State) : Vector Node 513 :=
  tabulate fun n => if h : n.val < 257 then leafNode queued n.val (freqValue s ⟨n.val, h⟩) else s.nodes[n]

/-- The INIT step, R144: abort with ERR_OVF when the total exceeds 2^32 - 1, else queue the leaves. -/
def initStep (s : State) : State :=
  if Config.MAX_TOTAL < freqTotal s then
    { s with nodes := writeLeaves false s, errOvf := true, phase := .idle }
  else
    { s with nodes := writeLeaves true s, initDone := true }

/-- `NODE[n].QUEUED <- 0` for one entry. -/
def dequeue (e : Node) : Node := { e with queued := false }

/-- The internal node that a merge of A and B creates (41_tree_build.md R147). -/
def internalNode (a b : Key) : Node :=
  { valid := true, leaf := false, queued := true, symbol := 0#9, left := BitVec.ofNat 10 a.id,
    right := BitVec.ofNat 10 b.id, weight := BitVec.ofNat 32 (a.weight + b.weight) }

/-- The three entries a merge writes: A and B leave Q, and node 257 + k enters it (41_tree_build.md R147). -/
def mergeNodes (k : Nat) (a b : Key) (nodes : Vector Node 513) : Vector Node 513 :=
  updateNode (257 + k) (fun _ => internalNode a b) (updateNode b.id dequeue (updateNode a.id dequeue nodes))

/-- The effect of merging A and B: R147, and the completion of R148 in the same step when it is the last merge. -/
def applyMerge (a b : Key) (s : State) : State :=
  let merged := { s with nodes := mergeNodes s.merges.toNat a b s.nodes, merges := s.merges + 1#9 }
  if s.merges.toNat + 1 = 256 then { merged with treeValid := true, phase := .idle, initDone := false } else merged

/-- The MERGE step, R147. Its two faults mark states that R146 and R150 exclude (log entry 8). -/
def mergeStep (s : State) : Result :=
  match selectPair (queueOf s.nodes) with
  | none => .fault .queueUnderflow
  | some (a, b) =>
    if a.weight + b.weight ≤ Config.MAX_TOTAL then .next (applyMerge a b s) else .fault .mergeOverflow

/-- One turn of the sequencer: the enabled step, and nothing when none is enabled (41_tree_build.md R140; log entry 16). -/
def sequencerStep (s : State) : Result :=
  match enabledStep s with
  | none => .next s
  | some .clear => .next (clearStep s)
  | some .init => .next (initStep s)
  | some .merge => mergeStep s

end Sys2Proof.Machine
end

