-- ==== Sys2Proof/Machine/TreePort.lean ====
section
/-! DEFINITION. The tree read port and its level signals (42_tree_output.md R180, R181), reset as a transition
(70_reset_and_hazards.md R230), and the sampling of the physical ports (30_encoding.md R71). -/

namespace Sys2Proof.Machine

/-- `tree_valid` (42_tree_output.md R180). -/
def treeValidSignal (s : State) : Bool := s.treeValid

/-- `tree_root[9:0]` (42_tree_output.md R180). -/
def treeRootSignal (s : State) : NodePtr := rootId s

/-- `tree_rd_link` for an index: 0 above 512 (42_tree_output.md R181). -/
def portLink (s : State) (idx : NodePtr) : Word :=
  match portNode idx with
  | some n => link s n
  | none => 0#32

/-- `tree_rd_weight` for an index: 0 above 512 (42_tree_output.md R181). -/
def portWeight (s : State) (idx : NodePtr) : Word :=
  match portNode idx with
  | some n => weight s n
  | none => 0#32

/-- One consumer step: it returns both outputs and changes no state of the block (42_tree_output.md R181). -/
def consumerStep (idx : NodePtr) (s : State) : State :=
  { s with portOut := some { link := portLink s idx, weight := portWeight s idx } }

/-- Reset as a transition (70_reset_and_hazards.md R230): FREQ counts as unwritten and takes fresh free values (R231,
log entry 5); the store is invalidated; the moves still to come stay (log entry 18). -/
def takeReset (s : State) : State :=
  { State.reset with nodes := invalidateStore s.nodes, inputs := s.inputs, resets := s.resets + 1 }

/-- The input pins at one rising edge of `clk`, with the block's `bus_ack` there (30_encoding.md R71). -/
structure EdgeSample where
  rst : Bool
  busReq : Bool
  busAck : Bool
  busWe : Bool
  busAddr : Addr
  busWdata : Word
deriving DecidableEq, Repr

/-- What an edge brings about: `rst` goes ahead of everything, a transaction completes where `bus_req` and `bus_ack`
are both 1, and otherwise the pins do nothing (30_encoding.md R71, 70_reset_and_hazards.md R230). -/
def edgeInputs (p : EdgeSample) : List Input :=
  if p.rst then [.reset]
  else if p.busReq && p.busAck then [.host (BitVec.ofBool p.busWe ++ p.busAddr ++ p.busWdata)]
  else []

end Sys2Proof.Machine
end

