-- ==== Sys2Proof/Machine/Agents.lean ====
section
/-! DEFINITION. Which agent takes the next step and what it does (00_scope.md R11, 20_memory.md R60). -/

namespace Sys2Proof.Machine

/-- A transition of any agent but reset: a model that holds the phase encoding 3 faults (93_implementation_defined.md
U9, log entry 7). -/
def unlessReserved (s : State) (r : Result) : Result :=
  if s.phase = .reserved then .fault .phaseEncodingThree else r

/-- One move. A host transaction is decoded and executed; reset comes ahead of every check (70_reset_and_hazards.md R230). -/
def takeInput (i : Input) (s : State) : Result :=
  match i with
  | .host t => unlessReserved s (exec (decode t) s)
  | .sequencer => unlessReserved s (sequencerStep s)
  | .consumer idx => unlessReserved s (.next (consumerStep idx s))
  | .reset => .next (takeReset s)

/-- With no move pending the sequencer has the turn: a step that stays enabled is taken (70_reset_and_hazards.md R245;
log entry 2), and an idle block waits (R232). -/
def quietStep (s : State) : Result := unlessReserved s (sequencerStep s)

/-- Put a transaction word where the next step takes it: at the head of the moves still to come. -/
def placeTransaction (t : Transaction) (s : State) : State := { s with inputs := .host t :: s.inputs }

end Sys2Proof.Machine
end

