-- ==== Sys2Proof/Machine/Step.lean ====
section
/-! DEFINITION. One step of the machine: the next move of the interleaving (20_memory.md R60), and the placing of a
transaction word as that move. -/

namespace Sys2Proof.Machine

/-- One atomic transition (00_scope.md R6, R11): the first move of `inputs`, or the sequencer's turn when none is left. -/
def step (s : State) : Host.Outcome State Fault Refusal :=
  match s.inputs with
  | [] => quietStep s
  | i :: rest => takeInput i { s with inputs := rest }

/-- `s` with the transaction whose bits are `w` (those above `nbits` zero) as the host's next move. Log entry 3. -/
def State.withFetchWord (s : State) (nbits w : Nat) : State :=
  placeTransaction (BitVec.ofNat 45 (w % 2 ^ nbits)) s

end Sys2Proof.Machine
end

