-- ==== Sys2Proof/Machine/Build.lean ====
section
/-! DEFINITION. The build as a pure function on unbounded naturals (41_tree_build.md R156), and the two-FIFO
implementation that R146 names as conforming. Neither is used by the step; claims relate them to it. -/

namespace Sys2Proof.Machine

/-- `Internal(weight, left, right)` (41_tree_build.md R156). -/
structure Merged where
  weight : Nat
  left : Nat
  right : Nat
deriving DecidableEq, Repr

/-- A build under way: the internal nodes in creation order (the j-th has id 257 + j) and the keys still in Q. -/
structure Forest where
  made : List Merged
  queue : List Key
deriving DecidableEq, Repr

/-- The keys of the leaves, in symbol order (41_tree_build.md R142, R156). -/
def leafKeys (f : List Nat) : List Key := f.zipIdx.map fun p => { weight := p.1, id := p.2 }

/-- `Q <- {0..256}` (41_tree_build.md R156). -/
def Forest.start (f : List Nat) : Forest := { made := [], queue := leafKeys f }

/-- One round of the loop of 41_tree_build.md R156. -/
def Forest.merge (F : Forest) : Forest :=
  match selectPair F.queue with
  | none => F
  | some (a, b) =>
    { made := F.made ++ [{ weight := a.weight + b.weight, left := a.id, right := b.id }]
      queue := withoutId b.id (withoutId a.id F.queue) ++ [{ weight := a.weight + b.weight, id := 257 + F.made.length }] }

/-- The build of `f` after `k` merges. -/
def Forest.after (f : List Nat) : Nat → Forest
  | 0 => Forest.start f
  | k + 1 => (Forest.after f k).merge

/-- What a reader sees of a valid entry, on naturals. -/
structure NodeView where
  leaf : Bool
  queued : Bool
  symbol : Nat
  left : Nat
  right : Nat
  weight : Nat
deriving DecidableEq, Repr

/-- The view of one store entry: none while it is invalid (10_state.md R26). -/
def viewNode (e : Node) : Option NodeView :=
  if e.valid then
    some { leaf := e.leaf, queued := e.queued, symbol := e.symbol.toNat, left := e.left.toNat, right := e.right.toNat,
           weight := e.weight.toNat }
  else none

/-- Node `n` of the pure build of `f` after `k` merges (41_tree_build.md R156, R143). -/
def expectedNode (f : List Nat) (k n : Nat) : Option NodeView :=
  let F := Forest.after f k
  let queued := F.queue.any fun x => x.id == n
  if n < 257 then
    some { leaf := true, queued := queued, symbol := n, left := 0, right := 0, weight := f.getD n 0 }
  else
    match F.made[n - 257]? with
    | some m => some { leaf := false, queued := queued, symbol := 0, left := m.left, right := m.right, weight := m.weight }
    | none => none

/-! ## The two FIFOs of 41_tree_build.md R146 -/

/-- Insert a key into a list sorted by key. -/
def insertKey (x : Key) : List Key → List Key
  | [] => [x]
  | y :: ys => if x.lt y then x :: y :: ys else y :: insertKey x ys

/-- The keys sorted, least first. -/
def sortKeys : List Key → List Key
  | [] => []
  | x :: xs => insertKey x (sortKeys xs)

/-- Two FIFOs: "the leaves sorted by key, and the internal nodes in creation order" (41_tree_build.md R146). -/
structure TwoFifo where
  made : List Merged
  leaves : List Key
  internals : List Key
deriving DecidableEq, Repr

/-- "At each removal it takes the head with the lesser key" (41_tree_build.md R146). -/
def popLesser : List Key → List Key → Option (Key × List Key × List Key)
  | [], [] => none
  | x :: xs, [] => some (x, xs, [])
  | [], y :: ys => some (y, [], ys)
  | x :: xs, y :: ys => if y.lt x then some (y, x :: xs, ys) else some (x, xs, y :: ys)

/-- One merge of the two-FIFO implementation. -/
def TwoFifo.merge (F : TwoFifo) : TwoFifo :=
  match popLesser F.leaves F.internals with
  | none => F
  | some (a, leaves, internals) =>
    match popLesser leaves internals with
    | none => F
    | some (b, leaves', internals') =>
      { made := F.made ++ [{ weight := a.weight + b.weight, left := a.id, right := b.id }]
        leaves := leaves'
        internals := internals' ++ [{ weight := a.weight + b.weight, id := 257 + F.made.length }] }

/-- The two-FIFO build of `f` after `k` merges. -/
def TwoFifo.after (f : List Nat) : Nat → TwoFifo
  | 0 => { made := [], leaves := sortKeys (leafKeys f), internals := [] }
  | k + 1 => (TwoFifo.after f k).merge

end Sys2Proof.Machine
end

