-- ==== Sys2Proof/Machine/HostProgram.lean ====
section
/-! DEFINITION. The textual forms and the pseudo-instructions of a host program (30_encoding.md R79, R80) and the boot
sequence (70_reset_and_hazards.md R234, R235), as transaction words. A host program is no state of the block. -/

namespace Sys2Proof.Machine

/-- The address forms of 30_encoding.md R79. -/
inductive AddrForm where
  | number (a : Addr)
  | param | ctrl | status | root | merges
  | freqPlus (i : Sym)
  | linkPlus (n : NodeId)
  | wgtPlus (n : NodeId)
deriving DecidableEq, Repr

/-- The 12-bit address of an address form (30_encoding.md R79). -/
def AddrForm.address : AddrForm → Addr
  | .number a => a
  | .param => 0x000#12
  | .ctrl => 0x001#12
  | .status => 0x002#12
  | .root => 0x003#12
  | .merges => 0x004#12
  | .freqPlus i => freqAddr i
  | .linkPlus n => linkAddr n
  | .wgtPlus n => weightAddr n

/-- `rd <addr>` as a transaction: DATA is written as 0 (30_encoding.md R70, R79). -/
def rd (a : AddrForm) : Transaction := assemble false a.address 0#32

/-- `wr <addr>, <data>` as a transaction (30_encoding.md R79). -/
def wr (a : AddrForm) (d : Word) : Transaction := assemble true a.address d

/-- The pseudo-instructions of 30_encoding.md R80. -/
inductive Pseudo where
  | nop | build | clearf | clearerr
  | setf (i : Sym) (v : Word)
  | poll
  | loadtable (counts : Vector Word 257)
deriving DecidableEq, Repr

/-- The `setf` lines of `loadtable`: the non-zero entries in ascending order (30_encoding.md R80). -/
def setNonZero (counts : Vector Word 257) : List Transaction :=
  ((List.finRange 257).filter fun i => !(counts[i] == 0#32)).map fun i => wr (.freqPlus i) counts[i]

/-- The transactions of a pseudo-instruction. `poll` repeats `rd STATUS` until a response has STATE = 0; how often is
the interleaving's choice, so the number `again` of reads before the last is an argument (30_encoding.md R80). -/
def Pseudo.expand (again : Nat) : Pseudo → List Transaction
  | .nop => [wr .ctrl 0x0#32]
  | .build => [wr .ctrl 0x1#32]
  | .clearf => [wr .ctrl 0x2#32]
  | .clearerr => [wr .ctrl 0x3#32]
  | .setf i v => [wr (.freqPlus i) v]
  | .poll => List.replicate (again + 1) (rd .status)
  | .loadtable counts => wr .ctrl 0x2#32 :: List.replicate (again + 1) (rd .status) ++ setNonZero counts

/-- The host's test that ends `poll`: `s[1:0] = 0` of the response (30_encoding.md R80). -/
def pollEnds (status : Word) : Bool := status.extractLsb' 0 2 == 0#2

/-- Steps 2 to 6 of the boot sequence for a table (70_reset_and_hazards.md R234, R235). -/
def bootSequence (again again' : Nat) (counts : Vector Word 257) : List Transaction :=
  (Pseudo.loadtable counts).expand again ++ Pseudo.build.expand 0 ++ Pseudo.poll.expand again' ++ [rd .status]

end Sys2Proof.Machine
end

