-- ==== Sys2Proof/Machine/Observe.lean ====
section
/-! DEFINITION. The observation functions over this block's output (42_tree_output.md R183 to R187). They are not
operations of the block: they transcribe what downstream blocks compute from the tree read port. -/

namespace Sys2Proof.Machine

/-- A HuffmanNode as a consumer reads it (42_tree_output.md R183). -/
inductive HuffNode where
  | leaf (symbol weight : Nat)
  | internal (weight left right : Nat)
deriving DecidableEq, Repr

/-- Decoding a node word and its weight (42_tree_output.md R183): none while invalid. -/
def decodeNodeWord (w wt : Word) : Option HuffNode :=
  if w.getLsbD 31 = false then none
  else if w.getLsbD 30 = true then some (.leaf (w.extractLsb' 20 9).toNat wt.toNat)
  else some (.internal wt.toNat (w.extractLsb' 0 10).toNat (w.extractLsb' 10 10).toNat)

/-- Node `n` as a consumer reads it through the port; a number above 1023 is no `tree_rd_idx`. -/
def readNode (s : State) (n : Nat) : Option HuffNode :=
  if n < 1024 then decodeNodeWord (portLink s (BitVec.ofNat 10 n)) (portWeight s (BitVec.ofNat 10 n)) else none

/-- The tree below a node, with the ids and weights of the store. -/
inductive Tree where
  | leaf (symbol weight : Nat)
  | node (id weight : Nat) (left right : Tree)
deriving DecidableEq, Repr

/-- The tree below node `n`; `none` when an id on the way names no node or the depth exceeds `fuel` (log entry 17). -/
def treeFrom (read : Nat → Option HuffNode) : Nat → Nat → Option Tree
  | 0, _ => none
  | fuel + 1, n =>
    match read n with
    | none => none
    | some (.leaf symbol weight) => some (.leaf symbol weight)
    | some (.internal weight left right) =>
      match treeFrom read fuel left, treeFrom read fuel right with
      | some l, some r => some (.node n weight l r)
      | _, _ => none

/-- The tree a consumer walks from node 512 (42_tree_output.md R182, R184). A child id is less than its parent's
(41_tree_build.md R152), so 513 levels suffice. -/
def builtTree (s : State) : Option Tree := treeFrom (readNode s) 513 Config.ROOT_ID

/-- `walk(n, p)` of 42_tree_output.md R184: the symbols with their codes, 0 for left and 1 for right. -/
def Tree.codesFrom : Tree → List Bool → List (Nat × List Bool)
  | .leaf symbol _, p => [(symbol, p)]
  | .node _ _ l r, p => l.codesFrom (p ++ [false]) ++ r.codesFrom (p ++ [true])

/-- `codes(N)` (42_tree_output.md R184). -/
def Tree.codes (t : Tree) : List (Nat × List Bool) := t.codesFrom []

/-- `bits9`: the 9-bit field, most significant bit first (42_tree_output.md R186). -/
def bits9 (n : Nat) : List Bool :=
  [n.testBit 8, n.testBit 7, n.testBit 6, n.testBit 5, n.testBit 4, n.testBit 3, n.testBit 2, n.testBit 1, n.testBit 0]

/-- `header(N)` (42_tree_output.md R186). -/
def Tree.header : Tree → List Bool
  | .leaf symbol _ => true :: bits9 symbol
  | .node _ _ l r => false :: (l.header ++ r.header)

/-- The longest root-to-leaf path, in edges (41_tree_build.md R155). -/
def Tree.height : Tree → Nat
  | .leaf _ _ => 0
  | .node _ _ l r => max l.height r.height + 1

/-- The symbols at the leaves, left to right. -/
def Tree.symbols : Tree → List Nat
  | .leaf symbol _ => [symbol]
  | .node _ _ l r => l.symbols ++ r.symbols

/-- The ids of the internal nodes. -/
def Tree.internalIds : Tree → List Nat
  | .leaf _ _ => []
  | .node n _ l r => n :: (l.internalIds ++ r.internalIds)

/-- The weight stored at the top of a tree. -/
def Tree.topWeight : Tree → Nat
  | .leaf _ w => w
  | .node _ w _ _ => w

/-- The sum of the leaf weights of a tree (41_tree_build.md R151). -/
def Tree.leafSum : Tree → Nat
  | .leaf _ w => w
  | .node _ _ l r => l.leafSum + r.leafSum

/-- Every internal node's weight is the sum of the leaf weights below it (41_tree_build.md R151). -/
def Tree.weightsAdd : Tree → Bool
  | .leaf _ _ => true
  | .node _ w l r => w == l.leafSum + r.leafSum && l.weightsAdd && r.weightsAdd

/-- A tree without its weights and node ids, as a header decoder rebuilds it (42_tree_output.md R187). -/
def Tree.shape : Tree → Tree
  | .leaf symbol _ => .leaf symbol 0
  | .node _ _ l r => .node 0 0 l.shape r.shape

/-- The value of a bit string, most significant bit first. -/
def bitsValue (bits : List Bool) : Nat := bits.foldl (fun v b => 2 * v + b.toNat) 0

/-- The reader of `header` (42_tree_output.md R186 read backwards, R187): the tree with zero weights and the bits left
over; one level of fuel for each node on a path. DEDUCED, log entry 17. -/
def readHeader : Nat → List Bool → Option (Tree × List Bool)
  | 0, _ => none
  | _ + 1, [] => none
  | _ + 1, true :: rest =>
    if rest.length < 9 then none else some (.leaf (bitsValue (rest.take 9)) 0, rest.drop 9)
  | fuel + 1, false :: rest =>
    match readHeader fuel rest with
    | none => none
    | some (l, rest') =>
      match readHeader fuel rest' with
      | none => none
      | some (r, rest'') => some (.node 0 0 l r, rest'')

end Sys2Proof.Machine
end

