-- ==== Sys2Proof/Safety.lean ====
section
/-! DEFINITION. What counts as a safe state and a safe run, and the terms the claims use: the control invariant, the
store invariant that ties the node store to the pure build, and what may be observed at the end of a run. -/

namespace Sys2Proof.Machine

/-- The control state of every run (10_state.md R22, R23, R28). -/
structure ControlInv (s : State) : Prop where
  /-- "The encoding 3 is never held" (R22). -/
  phaseLegal : s.phase ≠ .reserved
  /-- INIT_DONE is 1 only within a build (R22). -/
  initDoneBuilding : s.initDone = true → s.phase = .building
  /-- Before INIT no merge has run (R22: (0, 0): INIT is next). -/
  initFirst : s.phase = .building → s.initDone = false → s.merges = 0#9
  /-- Within a build after INIT a merge is next (R22: (1, k) with k < 256). -/
  mergeNext : s.initDone = true → s.merges.toNat < 256
  /-- "a 9-bit count, 0..256" (R23). -/
  mergesBound : s.merges.toNat ≤ 256
  /-- "`MERGES` = 256 exactly when the last build completed" (R23), which TREE_VALID reports (R28). -/
  treeValidMerges : s.treeValid = true ↔ s.merges.toNat = 256
  /-- An accepted BUILD clears TREE_VALID and only the last merge sets it (R28). -/
  treeValidRests : s.treeValid = true → s.phase ≠ .building

/-- Node `n` is in Q (10_state.md R27). -/
def InQueue (s : State) (n : NodeId) : Prop := s.nodes[n].valid = true ∧ s.nodes[n].queued = true

/-- `key(m) < key(n)` over the node store (00_scope.md R9, 41_tree_build.md R145). -/
def KeyBefore (s : State) (m n : NodeId) : Prop :=
  s.nodes[m].weight.toNat < s.nodes[n].weight.toNat ∨
    (s.nodes[m].weight.toNat = s.nodes[n].weight.toNat ∧ m.val < n.val)

/-- A and B of the next merge: the two least nodes of Q (41_tree_build.md R146). -/
structure NextPair (s : State) (a b : NodeId) : Prop where
  queuedA : InQueue s a
  queuedB : InQueue s b
  distinct : b ≠ a
  leastA : ∀ n, InQueue s n → n ≠ a → KeyBefore s a n
  leastB : ∀ n, InQueue s n → n ≠ a → n ≠ b → KeyBefore s b n

/-- The FREQ array as a list of naturals: what INIT snapshots (41_tree_build.md R144, 20_memory.md
R63). Irreducible, so that elaboration never evaluates it. -/
@[irreducible] def freqList (s : State) : List Nat := (List.finRange 257).map fun i => (freqValue s i).toNat

/-- The sequencer has the turn: its move is the next of `inputs`, or none is left. -/
def SequencerTurn (s : State) : Prop := s.inputs = [] ∨ ∃ rest, s.inputs = .sequencer :: rest

/-- The next move is a host transaction that selects `i`. -/
def HostTurn (s : State) (i : Instr) : Prop := ∃ t rest, s.inputs = .host t :: rest ∧ decode t = i

/-- The next move is reset. -/
def ResetTurn (s : State) : Prop := ∃ rest, s.inputs = .reset :: rest

/-- The weights of the leaves 0..256: the INIT snapshot of FREQ, as the store keeps it (41_tree_build.md R144). Irreducible, as
`freqList` is. -/
@[irreducible] def leafWeights (nodes : Vector Node 513) : List Nat := (nodes.toList.take 257).map fun e => e.weight.toNat

/-- The table the build under way is a build of: FREQ until INIT snapshots it, the leaf weights from then on
(20_memory.md R63, 41_tree_build.md R144). -/
def buildTable (s : State) : List Nat := if s.initDone = true then leafWeights s.nodes else freqList s

/-- The store is that of the pure build of its own leaf weights after `k` merges (41_tree_build.md R156), and their
total is one INIT accepts (R144). -/
def StoreIsBuild (nodes : Vector Node 513) (k : Nat) : Prop :=
  (leafWeights nodes).sum ≤ Config.MAX_TOTAL ∧
    ∀ n : NodeId, viewNode nodes[n] = expectedNode (leafWeights nodes) k n.val

/-- An entry outside any tree: invalid, or a leaf that an aborted INIT left out of Q (41_tree_build.md R144). -/
def IdleEntry (n : NodeId) (e : Node) : Prop :=
  viewNode e = none ∨
    (n.val < 257 ∧ viewNode e = some { leaf := true, queued := false, symbol := n.val, left := 0, right := 0,
                                       weight := e.weight.toNat })

/-- The node store of every run (10_state.md R27, R28, 41_tree_build.md R144, R156). -/
structure StoreInv (s : State) : Prop where
  /-- Between BUILD and INIT no entry is valid (40_host_operations.md R104). -/
  beforeInit : s.phase = .building → s.initDone = false → ∀ n : NodeId, viewNode s.nodes[n] = none
  /-- After INIT the store is the pure build's after MERGES merges. -/
  duringMerges : s.phase = .building → s.initDone = true → StoreIsBuild s.nodes s.merges.toNat
  /-- While TREE_VALID the store is the completed build's (10_state.md R28). -/
  whenValid : s.treeValid = true → StoreIsBuild s.nodes 256
  /-- At rest without a tree Q is empty (10_state.md R27). -/
  withoutTree : s.phase ≠ .building → s.treeValid = false → ∀ n : NodeId, IdleEntry n s.nodes[n]

/-- The invariant of every run. -/
structure Inv (s : State) : Prop where
  control : ControlInv s
  store : StoreInv s

/-- `k` steps of the machine. -/
def runFor (k : Nat) (s : State) : Result := Sys2Proof.core.run k s

/-- The moves of a state start no build and hold no reset: the build under way is the last of the run. -/
def NoRestart (l : List Input) : Prop :=
  ∀ i ∈ l, i ≠ .reset ∧ ∀ t, i = .host t → decode t ≠ .cmdBuild

/-- The host has made its last transaction and `STATE` is IDLE (70_reset_and_hazards.md R247). -/
def runEnded (s : State) : Bool :=
  (s.inputs.all fun i => match i with | .host _ => false | .sequencer => true | .consumer _ => true | .reset => true)
    && s.phase == .idle

/-- What may be observed at the end of a run (70_reset_and_hazards.md R247): STATUS, ROOT, MERGES, the written FREQ
entries and the node words. -/
structure Observation where
  status : Word
  root : Word
  merges : Word
  freq : List (Option Word)
  links : List Word
  weights : List Word
deriving DecidableEq, Repr

/-- A FREQ entry as R247 lets it be observed: only when written. -/
def observedFreq : FreqEntry → Option Word
  | .written v => some v
  | .unwritten => none

/-- The observation of a state (70_reset_and_hazards.md R247). -/
def observe (s : State) : Observation where
  status := statusWord s
  root := rootWord s
  merges := mergesWord s
  freq := s.freq.toList.map observedFreq
  links := s.nodes.toList.map nodeLink
  weights := s.nodes.toList.map nodeWeight

/-- The host's duty while a consumer walks the tree: no BUILD, and no reset (42_tree_output.md R182,
70_reset_and_hazards.md R242). The step does not enforce it (log entry 15). -/
def WalkAllowed (i : Input) : Prop := i ≠ .reset ∧ ∀ t, i = .host t → decode t ≠ .cmdBuild

/-- Two states agree in everything the block's agents can observe of the node store, and in all else. The entries may
differ while VALID = 0 (10_state.md R26, 93_implementation_defined.md U2). -/
def SameButInvalid (s t : State) : Prop :=
  (∀ n : NodeId, viewNode s.nodes[n] = viewNode t.nodes[n]) ∧ { s with nodes := t.nodes } = t

/-- Two results are both next states that agree so, or the same stop. -/
def SameOutcome (a b : Result) : Prop :=
  match a, b with
  | .next s, .next t => SameButInvalid s t
  | .fault x, .fault y => x = y
  | .refused x, .refused y => x = y
  | _, _ => False

end Sys2Proof.Machine
end

