-- ==== Sys2Proof/Certificates/Slice0/Obligations.lean ====
section
/-! DEFINITION. The statements for the provers, in the spec's order: encoding, step and reset, host operations,
sequencer, invariants, whole-machine rules, tree properties. -/

open Sys2Proof Sys2Proof.Machine

/-! ## Encoding (20_memory.md, 30_encoding.md) -/

/-- R70, R73, R75: decoding the word of a well-formed operation gives it back with every operand. -/
def Obligations.DecodeOfEncodeGivesInstruction : Prop :=
  ∀ i : Instr, i.wf = true → decode (encode i) = i

/-- R73: every word selects an operation, and its encoding keeps WE, ADDR and the DATA bits that are not ignored. -/
def Obligations.EncodeOfDecodeKeepsUsedBits : Prop :=
  ∀ t : Transaction, (decode t).wf = true ∧
    weOf (encode (decode t)) = weOf t ∧ addrOf (encode (decode t)) = addrOf t ∧
    (weOf t = true → regionOf (addrOf t) = .freq → dataOf (encode (decode t)) = dataOf t) ∧
    (weOf t = true → regionOf (addrOf t) = .ctrl → cmdOf (dataOf (encode (decode t))) = cmdOf (dataOf t))

/-- R78: DATA of a read is ignored, CTRL[31:4] is ignored, and the read-only addresses ignore the whole of DATA. -/
def Obligations.IgnoredDataBitsDoNotDecode : Prop :=
  ∀ (a : Addr) (d d' : Word),
    decode (assemble false a d) = decode (assemble false a d') ∧
    (d.extractLsb' 0 4 = d'.extractLsb' 0 4 → decode (assemble true 0x001#12 d) = decode (assemble true 0x001#12 d')) ∧
    (readOnlyAddr a = true → decode (assemble true a d) = decode (assemble true a d'))

/-- R73, R81: the decoder and the opcode table agree on every word, and exactly one row is used. -/
def Obligations.DecodeAgreesWithOpcodeTable : Prop :=
  ∀ t : Transaction, tableLookup t = some (decode t).mnemonic ∧
    (matchingRows 0 t).length ≤ 1 ∧ (matchingRows 1 t).length = 1

/-- R52, R53, R72: the bit patterns give the address map, and inside a window the index is the address less the base. -/
def Obligations.WindowsFollowAddressMap : Prop :=
  ∀ a : Addr,
    (regionOf a = .freq ↔ 0x200 ≤ a.toNat ∧ a.toNat ≤ 0x300) ∧
    (regionOf a = .nodeLink ↔ 0x400 ≤ a.toNat ∧ a.toNat ≤ 0x600) ∧
    (regionOf a = .nodeWeight ↔ 0x800 ≤ a.toNat ∧ a.toNat ≤ 0xA00) ∧
    (regionOf a = .param ↔ a.toNat = 0) ∧ (regionOf a = .ctrl ↔ a.toNat = 1) ∧ (regionOf a = .status ↔ a.toNat = 2) ∧
    (regionOf a = .root ↔ a.toNat = 3) ∧ (regionOf a = .merges ↔ a.toNat = 4) ∧
    (regionOf a = .unmapped ↔ (0x005 ≤ a.toNat ∧ a.toNat ≤ 0x1FF) ∨ (0x301 ≤ a.toNat ∧ a.toNat ≤ 0x3FF) ∨
      (0x601 ≤ a.toNat ∧ a.toNat ≤ 0x7FF) ∨ 0xA01 ≤ a.toNat) ∧
    (regionOf a = .freq → (freqIndex a).val = a.toNat - 0x200) ∧
    (regionOf a = .nodeLink → (linkIndex a).val = a.toNat - 0x400) ∧
    (regionOf a = .nodeWeight → (weightIndex a).val = a.toNat - 0x800)

/-- R70, R73: words of 95_test_vectors.md (seven of L2.7, and a FREQ write of L2.3) decode to the operations it names. -/
def Obligations.WrittenOutWordsDecode : Prop :=
  decode 0x100000000000#45 = .wrRo 0x000#12 ∧ decode 0x1001ABCDEF02#45 = .cmdClearf ∧
    decode 0x10010000000C#45 = .cmdRsvd 0xC#4 ∧ decode 0x030000000000#45 = .rdFreq 256 ∧
    decode 0x05FF00000000#45 = .rdLink 511 ∧ decode 0x0A0000000000#45 = .rdWeight 512 ∧
    decode 0x130100000000#45 = .wrUnmapped 0x301#12 ∧ decode 0x1241000003E8#45 = .wrFreq 65 1000#32

/-- R79, R80: a read through each symbolic address, and each pseudo-instruction, is the transactions it stands for. -/
def Obligations.PseudoInstructionsAreTheirTransactions : Prop :=
  (∀ again, (Pseudo.nop.expand again).map decode = [.cmdNop] ∧ (Pseudo.build.expand again).map decode = [.cmdBuild] ∧
    (Pseudo.clearf.expand again).map decode = [.cmdClearf] ∧ (Pseudo.clearerr.expand again).map decode = [.cmdClearerr] ∧
    (Pseudo.poll.expand again).map decode = List.replicate (again + 1) .rdStatus) ∧
  (∀ again i v, ((Pseudo.setf i v).expand again).map decode = [.wrFreq i v]) ∧
  (decode (rd .param) = .rdParam ∧ decode (rd .ctrl) = .rdCtrl ∧ decode (rd .status) = .rdStatus ∧
    decode (rd .root) = .rdRoot ∧ decode (rd .merges) = .rdMerges) ∧
  (∀ i n, decode (rd (.freqPlus i)) = .rdFreq i ∧ decode (rd (.linkPlus n)) = .rdLink n ∧
    decode (rd (.wgtPlus n)) = .rdWeight n) ∧
  (∀ again counts, ((Pseudo.loadtable counts).expand again).map decode =
    .cmdClearf :: List.replicate (again + 1) .rdStatus ++
      ((List.finRange 257).filter fun i => !(counts[i] == 0#32)).map fun i => .wrFreq i counts[i])

/-! ## Step, agents and reset (00_scope.md, 20_memory.md, 70_reset_and_hazards.md) -/

/-- R6, R60: a host transaction at the head of the moves is decoded and executed in one step, which only takes it off. -/
def Obligations.StepRunsDecodedTransaction : Prop :=
  (∀ (s : State) t rest, s.phase ≠ .reserved → s.inputs = .host t :: rest →
    step s = exec (decode t) { s with inputs := rest }) ∧
  (∀ (s : State) nbits w, s.phase ≠ .reserved →
    step (s.withFetchWord nbits w) = exec (decode (BitVec.ofNat 45 (w % 2 ^ nbits))) s)

/-- R11, R60: the other agents' moves; with no move left the sequencer has the turn (that part is the model's choice,
log entry 2). -/
def Obligations.StepServesOtherAgents : Prop :=
  ∀ (s : State) rest, s.phase ≠ .reserved →
    (s.inputs = .sequencer :: rest → step s = sequencerStep { s with inputs := rest }) ∧
    (∀ idx, s.inputs = .consumer idx :: rest → step s = .next (consumerStep idx { s with inputs := rest })) ∧
    (s.inputs = .reset :: rest → step s = .next (takeReset { s with inputs := rest })) ∧
    (s.inputs = [] → step s = sequencerStep s)

/-- 93_implementation_defined.md U9: a state that holds the phase encoding 3 faults on every move but reset. -/
def Obligations.ReservedPhaseFaultsUntilReset : Prop :=
  ∀ s : State, s.phase = .reserved →
    (¬ ResetTurn s → step s = .fault .phaseEncodingThree) ∧ (ResetTurn s → ∃ t, step s = .next t ∧ t.phase = .idle)

/-- R39: the value of every piece of state right after reset. -/
def Obligations.ResetStateHoldsStatedValues : Prop :=
  State.reset.phase = .idle ∧ State.reset.initDone = false ∧ State.reset.merges = 0#9 ∧ State.reset.treeValid = false ∧
  (∀ e, State.reset.flag e = false) ∧
  (∀ n : NodeId, State.reset.nodes[n].valid = false ∧ State.reset.nodes[n].queued = false) ∧
  (∀ i : Sym, State.reset.freq[i] = .unwritten) ∧
  exec .rdParam State.reset = .next { State.reset with rdata := some 0x02080501#32 }

/-- R230, R231: reset from any state, in one transition and whatever the state was doing. What becomes of the moves
still to come and of the model's own outputs is the model's choice (log entries 5, 9, 10, 18). -/
def Obligations.ResetTransitionClearsState : Prop :=
  ∀ (s : State) rest, s.inputs = .reset :: rest → ∃ t, step s = .next t ∧
    t.phase = .idle ∧ t.initDone = false ∧ t.merges = 0#9 ∧ t.treeValid = false ∧ (∀ e, t.flag e = false) ∧
    (∀ n : NodeId, t.nodes[n].valid = false ∧ t.nodes[n].queued = false ∧ link t n = 0#32 ∧ weight t n = 0#32) ∧
    (∀ i : Sym, t.freq[i] = .unwritten) ∧ t.inputs = rest ∧ t.resets = s.resets + 1

/-- R71, R230: the pins at a clock edge give the transaction word WE, ADDR, DATA, and `rst` goes ahead of it. -/
def Obligations.ClockEdgeGivesItsTransaction : Prop :=
  ∀ p : EdgeSample,
    (p.rst = true → edgeInputs p = [.reset]) ∧
    (p.rst = false → (p.busReq = false ∨ p.busAck = false) → edgeInputs p = []) ∧
    (p.rst = false → p.busReq = true → p.busAck = true → ∃ t, edgeInputs p = [.host t] ∧
      weOf t = p.busWe ∧ addrOf t = p.busAddr ∧ dataOf t = p.busWdata)

/-! ## Register reads (40_host_operations.md section 2) -/

/-- R101, R102: RD.PARAM returns the constant and RD.CTRL returns 0, in every state; they change nothing. -/
def Obligations.RdParamAndRdCtrlReturnConstants : Prop :=
  ∀ s : State, exec .rdParam s = .next { s with rdata := some 0x02080501#32 } ∧
    exec .rdCtrl s = .next { s with rdata := some 0#32 }

/-- R108, R32, R202: RD.STATUS returns the status word, each flag at its cause code, and changes nothing. -/
def Obligations.RdStatusReturnsStatusBits : Prop :=
  ∀ s : State, ∃ w : Word, exec .rdStatus s = .next { s with rdata := some w } ∧
    (w.extractLsb' 0 2).toNat =
      (match s.phase with | .idle => 0 | .clearing => 1 | .building => 2 | .reserved => 3) ∧
    w.getLsbD 2 = s.treeValid ∧ w.getLsbD 3 = false ∧ w.getLsbD 4 = s.errOvf ∧ w.getLsbD 5 = s.errCmd ∧
    w.getLsbD 6 = s.errBusy ∧ w.getLsbD 7 = s.errAddr ∧ (∀ e, w.getLsbD e.causeCode = s.flag e) ∧
    w.extractLsb' 8 24 = 0#24

/-- R109, R114, R33, R34: RD.ROOT returns 512 while the tree is valid, else 0; RD.MERGES returns MERGES
zero-extended; they change nothing. -/
def Obligations.RdRootAndRdMergesReturnProgress : Prop :=
  ∀ s : State, exec .rdRoot s =
      .next { s with rdata := some (if s.treeValid = true then 0x00000200#32 else 0x00000000#32) } ∧
    ∃ w : Word, exec .rdMerges s = .next { s with rdata := some w } ∧ w.toNat = s.merges.toNat

/-! ## Commands (40_host_operations.md section 3)

A write has no response: that the model's own field `rdata` is then `none` is the model's choice (log entry 9). -/

/-- R103: CMD.NOP leaves every state unchanged, in any STATE and whatever DATA[31:4] holds (`rdata`: log entry 9). -/
def Obligations.CmdNopChangesNothing : Prop :=
  (∀ s : State, exec .cmdNop s = .next { s with rdata := none }) ∧
  (∀ d : Word, d.extractLsb' 0 4 = 0#4 → decode (assemble true 0x001#12 d) = .cmdNop)

/-- R104: an accepted BUILD, all it writes and all it leaves (`rdata`: log entry 9). -/
def Obligations.CmdBuildStartsBuild : Prop :=
  ∀ s : State, s.phase = .idle → ∃ t, exec .cmdBuild s = .next t ∧
    t.phase = .building ∧ t.initDone = false ∧ t.merges = 0#9 ∧ t.treeValid = false ∧ t.errOvf = false ∧
    (∀ n : NodeId, t.nodes[n].valid = false ∧ t.nodes[n].queued = false ∧ link t n = 0#32 ∧ weight t n = 0#32) ∧
    t.errCmd = s.errCmd ∧ t.errBusy = s.errBusy ∧ t.errAddr = s.errAddr ∧ t.freq = s.freq ∧
    t.inputs = s.inputs ∧ t.rdata = none ∧ t.portOut = s.portOut ∧ t.resets = s.resets

/-- R105: an accepted CLEAR_FREQ only sets STATE to CLEARING (`rdata`: log entry 9). -/
def Obligations.CmdClearfStartsClear : Prop :=
  ∀ s : State, s.phase = .idle → exec .cmdClearf s = .next { s with phase := .clearing, rdata := none }

/-- R106: CLEAR_ERR clears the four flags and nothing else, in any STATE (`rdata`: log entry 9). -/
def Obligations.CmdClearerrClearsFlags : Prop :=
  ∀ s : State, exec .cmdClearerr s =
    .next { s with errOvf := false, errCmd := false, errBusy := false, errAddr := false, rdata := none }

/-- R107: a reserved code raises ERR_CMD and changes nothing else, in any STATE; every code from 4 to 15 selects it
(`rdata`: log entry 9). -/
def Obligations.CmdRsvdRaisesErrCmd : Prop :=
  (∀ c (s : State), exec (.cmdRsvd c) s = .next { s with errCmd := true, rdata := none }) ∧
  (∀ d : Word, 4 ≤ (d.extractLsb' 0 4).toNat → decode (assemble true 0x001#12 d) = .cmdRsvd (d.extractLsb' 0 4))

/-- R240, R104, R105, R110: while STATE is not IDLE a BUILD, a CLEAR_FREQ and a FREQ write only raise ERR_BUSY
(`rdata`: log entry 9). -/
def Obligations.BusyOperationsOnlyRaiseErrBusy : Prop :=
  ∀ s : State, s.phase ≠ .idle →
    exec .cmdBuild s = .next { s with errBusy := true, rdata := none } ∧
    exec .cmdClearf s = .next { s with errBusy := true, rdata := none } ∧
    ∀ i v, exec (.wrFreq i v) s = .next { s with errBusy := true, rdata := none }

/-! ## Windows and access errors (40_host_operations.md sections 4 to 6) -/

/-- R110: an accepted FREQ write stores the count in its entry, which then reads so, and changes nothing else
(`rdata`: log entry 9). -/
def Obligations.WrFreqStoresCount : Prop :=
  ∀ (s : State) i v, s.phase = .idle → ∃ t, exec (.wrFreq i v) s = .next t ∧
    t.freq[i] = .written v ∧ freqValue t i = v ∧ (∀ j : Sym, j ≠ i → t.freq[j] = s.freq[j]) ∧
    t = { s with freq := t.freq, rdata := none }

/-- R37, R111: RD.FREQ returns the stored value of a written entry in any STATE; an unwritten entry returns some value,
the same at every read until it is written or reset (93_implementation_defined.md U1; log entry 4). -/
def Obligations.RdFreqReturnsStoredValue : Prop :=
  (∀ (s : State) i v, s.freq[i] = .written v → exec (.rdFreq i) s = .next { s with rdata := some v }) ∧
  (∀ r i, ∃ v, ∀ s : State, s.resets = r → s.freq[i] = .unwritten →
    exec (.rdFreq i) s = .next { s with rdata := some v })

/-- R115, R26, R35: RD.LINK returns the node word's fields, or 0 while the entry is invalid, and changes nothing. -/
def Obligations.RdLinkReturnsNodeWord : Prop :=
  ∀ (s : State) n, ∃ w : Word, exec (.rdLink n) s = .next { s with rdata := some w } ∧
    (s.nodes[n].valid = false → w = 0#32) ∧
    (s.nodes[n].valid = true → w.getLsbD 31 = true ∧ w.getLsbD 30 = s.nodes[n].leaf ∧
      w.getLsbD 29 = s.nodes[n].queued ∧ w.extractLsb' 20 9 = s.nodes[n].symbol ∧
      w.extractLsb' 10 10 = s.nodes[n].right ∧ w.extractLsb' 0 10 = s.nodes[n].left)

/-- R116, R26, R36: RD.WEIGHT returns the weight, or 0 while the entry is invalid, and changes nothing. -/
def Obligations.RdWeightReturnsWeight : Prop :=
  ∀ (s : State) n, exec (.rdWeight n) s =
    .next { s with rdata := some (if s.nodes[n].valid = true then s.nodes[n].weight else 0#32) }

/-- R112, R113, R117: an unmapped read returns 0, and it, a write to a read-only address and an unmapped write raise
ERR_ADDR and change nothing else, in any STATE (`rdata` after a write: log entry 9). -/
def Obligations.BadAddressesOnlyRaiseErrAddr : Prop :=
  ∀ (s : State) (a : Addr),
    exec (.rdUnmapped a) s = .next { s with errAddr := true, rdata := some 0#32 } ∧
    exec (.wrRo a) s = .next { s with errAddr := true, rdata := none } ∧
    exec (.wrUnmapped a) s = .next { s with errAddr := true, rdata := none }

/-! ## Every host operation (40_host_operations.md section 1) -/

/-- R100, R201: every transaction word completes in every state, a read with a response and a write with none
(`rdata` after a write: log entry 9). -/
def Obligations.EveryTransactionCompletes : Prop :=
  ∀ (t : Transaction) (s : State), ∃ u, exec (decode t) s = .next u ∧
    (weOf t = false → ∃ v, u.rdata = some v) ∧ (weOf t = true → u.rdata = none)

/-- R57 and the frame of RD.PARAM, RD.CTRL, RD.STATUS, RD.ROOT, RD.MERGES, RD.FREQ, RD.LINK, RD.WEIGHT: a mapped read
changes the response and nothing else, so every FREQ entry and node word reads as before. -/
def Obligations.MappedReadsChangeOnlyResponse : Prop :=
  ∀ i s t, i.we = false → (∀ a, i ≠ .rdUnmapped a) → exec i s = .next t →
    t = { s with rdata := t.rdata } ∧ (∀ j, freqValue t j = freqValue s j) ∧
    ∀ n, link t n = link s n ∧ weight t n = weight s n

/-- The frame of every host operation: what each may change, and that nothing else changes (R103 to R117). -/
def Obligations.TransactionFrame : Prop :=
  ∀ i s t, exec i s = .next t →
    t.inputs = s.inputs ∧ t.portOut = s.portOut ∧ t.resets = s.resets ∧
    (∀ j : Sym, (∀ v, ¬ (i = .wrFreq j v ∧ s.phase = .idle)) → t.freq[j] = s.freq[j] ∧ freqValue t j = freqValue s j) ∧
    (¬ (i = .cmdBuild ∧ s.phase = .idle) →
      t.nodes = s.nodes ∧ (∀ n, link t n = link s n ∧ weight t n = weight s n) ∧
      t.merges = s.merges ∧ t.initDone = s.initDone ∧ t.treeValid = s.treeValid) ∧
    (¬ ((i = .cmdBuild ∨ i = .cmdClearf) ∧ s.phase = .idle) → t.phase = s.phase) ∧
    (t.errOvf ≠ s.errOvf → i = .cmdClearerr ∨ (i = .cmdBuild ∧ s.phase = .idle)) ∧
    (t.errCmd ≠ s.errCmd → i = .cmdClearerr ∨ ∃ c, i = .cmdRsvd c) ∧
    (t.errBusy ≠ s.errBusy → i = .cmdClearerr ∨
      (s.phase ≠ .idle ∧ (i = .cmdBuild ∨ i = .cmdClearf ∨ ∃ j v, i = .wrFreq j v))) ∧
    (t.errAddr ≠ s.errAddr → i = .cmdClearerr ∨ ∃ a, i = .rdUnmapped a ∨ i = .wrRo a ∨ i = .wrUnmapped a)

/-- R100, R201: a transaction that sets a flag changes that flag and the response alone, and a read then returns 0
(`rdata` after a write: log entry 9). -/
def Obligations.RaisingTransactionChangesOneFlag : Prop :=
  ∀ i s t e, exec i s = .next t → s.flag e = false → t.flag e = true →
    t = { s.setFlag e with rdata := if i.we = true then none else some 0#32 } ∧ ∀ e', e' ≠ e → t.flag e' = s.flag e'

/-! ## Sequencer (41_tree_build.md) -/

/-- R140: which step is enabled, and that none is in IDLE; a turn with none enabled changes nothing (the model's choice,
log entry 16). -/
def Obligations.OneSequencerStepEnabled : Prop :=
  ∀ s : State,
    (enabledStep s = some .clear ↔ s.phase = .clearing) ∧
    (enabledStep s = some .init ↔ s.phase = .building ∧ s.initDone = false) ∧
    (enabledStep s = some .merge ↔ s.phase = .building ∧ s.initDone = true ∧ s.merges.toNat < 256) ∧
    (s.phase = .idle → enabledStep s = none) ∧ (enabledStep s = none → sequencerStep s = .next s)

/-- R141: the CLEAR step zeroes every entry, returns to IDLE, and leaves the rest. -/
def Obligations.ClearStepZeroesFreq : Prop :=
  ∀ s : State, s.phase = .clearing → ∃ t, sequencerStep s = .next t ∧ t.phase = .idle ∧
    (∀ i : Sym, t.freq[i] = .written 0#32 ∧ freqValue t i = 0#32) ∧ t = { s with freq := t.freq, phase := .idle }

/-- R144: INIT writes the 257 leaves from FREQ; it queues them, or aborts with ERR_OVF when the exact total exceeds
2^32 - 1. The values of unwritten entries are free, and the statement holds for each of them (log entry 4). -/
def Obligations.InitStepQueuesLeavesOrAborts : Prop :=
  ∀ s : State, s.phase = .building → s.initDone = false → ∃ t, sequencerStep s = .next t ∧
    (∀ n : NodeId, 257 ≤ n.val → t.nodes[n] = s.nodes[n]) ∧
    ((freqList s).sum ≤ 2 ^ 32 - 1 →
      (∀ (n : NodeId) (i : Sym), n.val = i.val → t.nodes[n] =
        { valid := true, leaf := true, queued := true, symbol := BitVec.ofNat 9 i.val, left := 0#10, right := 0#10,
          weight := freqValue s i }) ∧
      t = { s with nodes := t.nodes, initDone := true }) ∧
    ((freqList s).sum > 2 ^ 32 - 1 →
      (∀ (n : NodeId) (i : Sym), n.val = i.val → t.nodes[n] =
        { valid := true, leaf := true, queued := false, symbol := BitVec.ofNat 9 i.val, left := 0#10, right := 0#10,
          weight := freqValue s i }) ∧
      t = { s with nodes := t.nodes, errOvf := true, phase := .idle })

/-- R145, R146, R147, R148: a MERGE step takes the two least nodes of Q, joins them in node 257 + k, and completes the
build when it is the last. The premise on the sum is R150's, which the invariant gives. -/
def Obligations.MergeStepJoinsTwoLeast : Prop :=
  ∀ (s : State) a b, s.phase = .building → s.initDone = true → s.merges.toNat < 256 → NextPair s a b →
    s.nodes[a].weight.toNat + s.nodes[b].weight.toNat ≤ 2 ^ 32 - 1 → ∃ t, sequencerStep s = .next t ∧
    (∀ n : NodeId, n.val = 257 + s.merges.toNat → t.nodes[n] =
      { valid := true, leaf := false, queued := true, symbol := 0#9, left := BitVec.ofNat 10 a.val,
        right := BitVec.ofNat 10 b.val, weight := s.nodes[a].weight + s.nodes[b].weight }) ∧
    (∀ n : NodeId, n.val ≠ 257 + s.merges.toNat → (n = a ∨ n = b) → t.nodes[n] = { s.nodes[n] with queued := false }) ∧
    (∀ n : NodeId, n.val ≠ 257 + s.merges.toNat → n ≠ a → n ≠ b → t.nodes[n] = s.nodes[n]) ∧
    t.merges.toNat = s.merges.toNat + 1 ∧
    (s.merges.toNat < 255 → t = { s with nodes := t.nodes, merges := t.merges }) ∧
    (s.merges.toNat = 255 →
      t = { s with nodes := t.nodes, merges := t.merges, treeValid := true, phase := .idle, initDone := false })

/-- R245: a host or consumer move leaves an enabled sequencer step enabled. -/
def Obligations.EnabledStepStaysEnabled : Prop :=
  ∀ (s t : State) (i : Input) e, enabledStep s = some e → (i ≠ .reset ∧ i ≠ .sequencer) →
    takeInput i s = .next t → enabledStep t = some e

/-- R146: the two-FIFO implementation makes the same internal nodes as the selection by least key. -/
def Obligations.TwoFifoBuildEqualsLeastKeyBuild : Prop :=
  ∀ (f : List Nat) k, f.length = 257 → (TwoFifo.after f k).made = (Forest.after f k).made

/-! ## Invariants -/

/-- R39, R230: the state after reset meets the invariant. -/
def Obligations.ResetStateMeetsInvariant : Prop := Inv State.reset

/-- R22, R23, R28: every step keeps the control invariant. -/
def Obligations.StepKeepsControlInvariant : Prop :=
  ∀ s t : State, ControlInv s → step s = .next t → ControlInv t

/-- R156, R28, R144: every step keeps the invariant: after INIT the node store is that of the pure build of its leaf
weights after MERGES merges, and while TREE_VALID it is the completed build's. -/
def Obligations.StepKeepsInvariant : Prop :=
  ∀ s t : State, Inv s → step s = .next t → Inv t

/-- R146, R150: in a state that meets the invariant no step stops: A and B exist and no weight overflows. -/
def Obligations.InvariantStatesNeverStop : Prop :=
  ∀ s : State, Inv s → ∃ t, step s = .next t

/-- R27: how many nodes Q holds. -/
def Obligations.QueueSizeFollowsMerges : Prop :=
  ∀ s : State, Inv s →
    (s.phase = .building → s.initDone = true → (queueOf s.nodes).length = 257 - s.merges.toNat) ∧
    (s.treeValid = true → (queueOf s.nodes).map Key.id = [512]) ∧
    (s.treeValid = false → (s.phase ≠ .building ∨ s.initDone = false) → queueOf s.nodes = [])

/-- R157, R245: left to the sequencer, a build is exactly 257 steps, or 1 when INIT aborts. -/
def Obligations.BuildEndsAfter257Steps : Prop :=
  ∀ s : State, Inv s → s.phase = .building → s.initDone = false → s.inputs = [] →
    ((freqList s).sum ≤ 2 ^ 32 - 1 →
      (∀ k, k < 257 → ∃ u, runFor k s = .next u ∧ u.phase = .building) ∧
      ∃ t, runFor 257 s = .next t ∧ t.phase = .idle ∧ t.treeValid = true ∧ t.merges.toNat = 256) ∧
    ((freqList s).sum > 2 ^ 32 - 1 →
      ∃ t, runFor 1 s = .next t ∧ t.phase = .idle ∧ t.errOvf = true ∧ t.treeValid = false ∧ t.merges.toNat = 0)

/-- R156, R63: however the moves interleave, a build that completes leaves the pure build of its table: of FREQ as it
was when the build had not yet run INIT, else of the leaf weights INIT wrote. -/
def Obligations.CompletedBuildIsPureBuildOfTable : Prop :=
  ∀ (s t : State) k, Inv s → s.phase = .building → NoRestart s.inputs → runFor k s = .next t → t.treeValid = true →
    ∀ n : NodeId, viewNode t.nodes[n] = expectedNode (buildTable s) 256 n.val

/-- R153: two builds of equal tables give equal node stores, word for word, under every interleaving. -/
def Obligations.BuildDependsOnTableAlone : Prop :=
  ∀ (s s' t t' : State) k k', Inv s → Inv s' → s.phase = .building → s'.phase = .building →
    NoRestart s.inputs → NoRestart s'.inputs → buildTable s = buildTable s' →
    runFor k s = .next t → runFor k' s' = .next t' → t.treeValid = true → t'.treeValid = true →
    ∀ n, link t n = link t' n ∧ weight t n = weight t' n

/-! ## Whole-machine rules -/

/-- R22: the only transitions of STATE. -/
def Obligations.PhaseChangesOnlyAsListed : Prop :=
  ∀ s t : State, step s = .next t → s.phase ≠ t.phase →
    (s.phase = .idle ∧ t.phase = .building ∧ HostTurn s .cmdBuild) ∨
    (s.phase = .idle ∧ t.phase = .clearing ∧ HostTurn s .cmdClearf) ∨
    (s.phase = .clearing ∧ t.phase = .idle ∧ SequencerTurn s) ∨
    (s.phase = .building ∧ t.phase = .idle ∧ SequencerTurn s ∧
      ((s.initDone = false ∧ (freqList s).sum > 2 ^ 32 - 1) ∨ (s.initDone = true ∧ s.merges.toNat = 255))) ∨
    (t.phase = .idle ∧ ResetTurn s)

/-- R28: only the last MERGE step sets TREE_VALID; only an accepted BUILD and reset clear it. -/
def Obligations.TreeValidChangesOnlyAsListed : Prop :=
  ∀ s t : State, step s = .next t →
    (s.treeValid = false → t.treeValid = true →
      SequencerTurn s ∧ s.phase = .building ∧ s.initDone = true ∧ s.merges.toNat = 255) ∧
    (s.treeValid = true → t.treeValid = false → (HostTurn s .cmdBuild ∧ s.phase = .idle) ∨ ResetTurn s)

/-- R29, R202: what sets and what clears each error flag. -/
def Obligations.ErrorFlagsAreSticky : Prop :=
  ∀ s t : State, step s = .next t →
    (∀ e, s.flag e = true → t.flag e = false →
      HostTurn s .cmdClearerr ∨ ResetTurn s ∨ (e = .ovf ∧ HostTurn s .cmdBuild ∧ s.phase = .idle)) ∧
    (s.errOvf = false → t.errOvf = true →
      SequencerTurn s ∧ s.phase = .building ∧ s.initDone = false ∧ (freqList s).sum > 2 ^ 32 - 1) ∧
    (s.errCmd = false → t.errCmd = true → ∃ c, HostTurn s (.cmdRsvd c)) ∧
    (s.errBusy = false → t.errBusy = true → s.phase ≠ .idle ∧
      (HostTurn s .cmdBuild ∨ HostTurn s .cmdClearf ∨ ∃ i v, HostTurn s (.wrFreq i v))) ∧
    (s.errAddr = false → t.errAddr = true →
      ∃ a, HostTurn s (.rdUnmapped a) ∨ HostTurn s (.wrRo a) ∨ HostTurn s (.wrUnmapped a))

/-- R24, R63: FREQ changes only by an accepted FREQ write, by the CLEAR step and by reset; so it is frozen in a build. -/
def Obligations.FreqChangesOnlyAsListed : Prop :=
  ∀ (s t : State) (i : Sym), step s = .next t → freqValue t i ≠ freqValue s i →
    (s.phase = .idle ∧ ∃ v, HostTurn s (.wrFreq i v) ∧ freqValue t i = v) ∨
    (s.phase = .clearing ∧ SequencerTurn s ∧ freqValue t i = 0#32) ∨ ResetTurn s

/-- R50, R23: the node store and MERGES change only by INIT and MERGE steps, an accepted BUILD and reset. -/
def Obligations.NodeStoreChangesOnlyAsListed : Prop :=
  ∀ s t : State, step s = .next t → (t.nodes ≠ s.nodes ∨ t.merges ≠ s.merges) →
    (s.phase = .building ∧ SequencerTurn s) ∨ (s.phase = .idle ∧ HostTurn s .cmdBuild) ∨ ResetTurn s

/-- R26, U2: what an invalid entry holds beside VALID never reaches an agent nor any later state. -/
def Obligations.InvalidEntriesAreUnobservable : Prop :=
  ∀ s t : State, SameButInvalid s t →
    observe s = observe t ∧ (∀ idx, portLink s idx = portLink t idx ∧ portWeight s idx = portWeight t idx) ∧
    SameOutcome (step s) (step t)

/-- R61, R182, with the host's duty of R242 as a premise (log entry 15): from a valid tree, every move but a BUILD and a reset leaves TREE_VALID and every node word as they are. -/
def Obligations.ValidTreeStaysReadable : Prop :=
  ∀ s t : State, ControlInv s → s.treeValid = true → (∀ i rest, s.inputs = i :: rest → WalkAllowed i) →
    step s = .next t → t.treeValid = true ∧ treeRootSignal t = 512#10 ∧ ∀ n, link t n = link s n ∧ weight t n = weight s n

/-! ## Tree output (42_tree_output.md) -/

/-- R180, R181, R65: the port's signals, its gating and its agreement with the host windows; a consumer step changes
only the port's outputs (the field `portOut`, log entry 10; the fault, log entry 7). -/
def Obligations.TreePortReadsNodeStore : Prop :=
  ∀ (s : State) (idx : NodePtr),
    treeValidSignal s = s.treeValid ∧ treeRootSignal s = (if s.treeValid = true then 512#10 else 0#10) ∧
    (∀ n : NodeId, idx.toNat = n.val → portLink s idx = link s n ∧ portWeight s idx = weight s n ∧
      exec (.rdLink n) s = .next { s with rdata := some (portLink s idx) } ∧
      exec (.rdWeight n) s = .next { s with rdata := some (portWeight s idx) }) ∧
    (513 ≤ idx.toNat → portLink s idx = 0#32 ∧ portWeight s idx = 0#32) ∧
    takeInput (.consumer idx) s = (if s.phase = .reserved then .fault .phaseEncodingThree else
      .next { s with portOut := some { link := portLink s idx, weight := portWeight s idx } })

/-- R183: a consumer decodes a node word to the leaf or internal node the entry holds. -/
def Obligations.NodeWordDecodesToItsNode : Prop :=
  ∀ e : Node, decodeNodeWord (nodeLink e) (nodeWeight e) =
    (if e.valid = false then none
     else if e.leaf = true then some (.leaf e.symbol.toNat e.weight.toNat)
     else some (.internal e.weight.toNat e.left.toNat e.right.toNat))

/-- R151: the root's weight is the sum of the leaf weights, and every internal node's is the sum of those below it. -/
def Obligations.RootWeightIsLeafSum : Prop :=
  ∀ s : State, Inv s → s.treeValid = true →
    (weight s 512).toNat = (leafWeights s.nodes).sum ∧
    ∃ tree, builtTree s = some tree ∧ tree.weightsAdd = true ∧ tree.topWeight = (leafWeights s.nodes).sum

/-- R152, R149: the node store of a completed build holds one tree with each symbol at one leaf, ids 257 to 512 internal,
each node but the root the child of exactly one, and child ids below their parent's. -/
def Obligations.CompletedStoreHoldsOneTree : Prop :=
  ∀ s : State, Inv s → s.treeValid = true →
    (∃ tree, builtTree s = some tree ∧ tree.symbols.Perm (List.range 257) ∧
      tree.internalIds.Perm ((List.range 256).map fun k => 257 + k)) ∧
    (∀ n : Nat, n < 257 → ∃ w, readNode s n = some (.leaf n w)) ∧
    (∀ n : Nat, 257 ≤ n → n < 513 → ∃ w l r, readNode s n = some (.internal w l r) ∧ l < n ∧ r < n ∧ l ≠ r) ∧
    (∀ m : Nat, m < 512 → ∃ p, (∃ w l r, readNode s p = some (.internal w l r) ∧ (l = m ∨ r = m)) ∧
      ∀ p', (∃ w l r, readNode s p' = some (.internal w l r) ∧ (l = m ∨ r = m)) → p' = p)

/-- R154: internal nodes are created in order of weight, and in each the left child's key is below the right child's. -/
def Obligations.MergesGoUpInWeight : Prop :=
  ∀ s : State, Inv s →
    (∀ m n : NodeId, 257 ≤ m.val → m.val < n.val → s.nodes[m].valid = true → s.nodes[n].valid = true →
      s.nodes[m].weight.toNat ≤ s.nodes[n].weight.toNat) ∧
    (∀ n l r : NodeId, s.nodes[n].valid = true → s.nodes[n].leaf = false → s.nodes[n].left.toNat = l.val →
      s.nodes[n].right.toNat = r.val → KeyBefore s l r)

/-- R155: the height of a completed tree is 9 to 256. -/
def Obligations.TreeHeightIsBounded : Prop :=
  ∀ s : State, Inv s → s.treeValid = true →
    ∃ tree, builtTree s = some tree ∧ 9 ≤ tree.height ∧ tree.height ≤ 256

/-- R185: 257 codes, one for each symbol, none a prefix of another, each 1 to 256 bits long. -/
def Obligations.CodesArePrefixFree : Prop :=
  ∀ s : State, Inv s → s.treeValid = true → ∃ tree, builtTree s = some tree ∧
    (tree.codes.map Prod.fst).Perm (List.range 257) ∧
    (∀ x ∈ tree.codes, ∀ y ∈ tree.codes, x.1 ≠ y.1 → ¬ x.2 <+: y.2) ∧
    (∀ x ∈ tree.codes, 1 ≤ x.2.length ∧ x.2.length ≤ 256) ∧ ∃ code, (256, code) ∈ tree.codes

/-- R186, R187: the header of a completed tree has 2826 bits, and reading it gives back the tree's shape and symbols (the
reader is the model's, log entry 17). -/
def Obligations.HeaderCarriesShapeIn2826Bits : Prop :=
  ∀ s : State, Inv s → s.treeValid = true → ∃ tree, builtTree s = some tree ∧
    tree.header.length = 2826 ∧ readHeader (tree.height + 1) tree.header = some (tree.shape, [])
end

