-- ==== Sys2Proof/Laws/State.lean ====
section
/-! SUPPORT. One lemma per field per update of the state, so that no later proof unfolds a record update. -/

namespace Sys2Proof.Machine

/-! ### A completed read -/

@[simp] theorem respond_phase (v : Word) (s : State) : (respond v s).phase = s.phase := rfl
@[simp] theorem respond_initDone (v : Word) (s : State) : (respond v s).initDone = s.initDone := rfl
@[simp] theorem respond_merges (v : Word) (s : State) : (respond v s).merges = s.merges := rfl
@[simp] theorem respond_freq (v : Word) (s : State) : (respond v s).freq = s.freq := rfl
@[simp] theorem respond_nodes (v : Word) (s : State) : (respond v s).nodes = s.nodes := rfl
@[simp] theorem respond_treeValid (v : Word) (s : State) : (respond v s).treeValid = s.treeValid := rfl
@[simp] theorem respond_errOvf (v : Word) (s : State) : (respond v s).errOvf = s.errOvf := rfl
@[simp] theorem respond_errCmd (v : Word) (s : State) : (respond v s).errCmd = s.errCmd := rfl
@[simp] theorem respond_errBusy (v : Word) (s : State) : (respond v s).errBusy = s.errBusy := rfl
@[simp] theorem respond_errAddr (v : Word) (s : State) : (respond v s).errAddr = s.errAddr := rfl
@[simp] theorem respond_inputs (v : Word) (s : State) : (respond v s).inputs = s.inputs := rfl
@[simp] theorem respond_rdata (v : Word) (s : State) : (respond v s).rdata = some v := rfl
@[simp] theorem respond_portOut (v : Word) (s : State) : (respond v s).portOut = s.portOut := rfl
@[simp] theorem respond_resets (v : Word) (s : State) : (respond v s).resets = s.resets := rfl

/-! ### A completed write -/

@[simp] theorem acknowledge_phase (s : State) : (acknowledge s).phase = s.phase := rfl
@[simp] theorem acknowledge_initDone (s : State) : (acknowledge s).initDone = s.initDone := rfl
@[simp] theorem acknowledge_merges (s : State) : (acknowledge s).merges = s.merges := rfl
@[simp] theorem acknowledge_freq (s : State) : (acknowledge s).freq = s.freq := rfl
@[simp] theorem acknowledge_nodes (s : State) : (acknowledge s).nodes = s.nodes := rfl
@[simp] theorem acknowledge_treeValid (s : State) : (acknowledge s).treeValid = s.treeValid := rfl
@[simp] theorem acknowledge_errOvf (s : State) : (acknowledge s).errOvf = s.errOvf := rfl
@[simp] theorem acknowledge_errCmd (s : State) : (acknowledge s).errCmd = s.errCmd := rfl
@[simp] theorem acknowledge_errBusy (s : State) : (acknowledge s).errBusy = s.errBusy := rfl
@[simp] theorem acknowledge_errAddr (s : State) : (acknowledge s).errAddr = s.errAddr := rfl
@[simp] theorem acknowledge_inputs (s : State) : (acknowledge s).inputs = s.inputs := rfl
@[simp] theorem acknowledge_rdata (s : State) : (acknowledge s).rdata = none := rfl
@[simp] theorem acknowledge_portOut (s : State) : (acknowledge s).portOut = s.portOut := rfl
@[simp] theorem acknowledge_resets (s : State) : (acknowledge s).resets = s.resets := rfl

/-! ### One error flag -/

@[simp] theorem setFlag_phase (e : ErrorFlag) (s : State) : (s.setFlag e).phase = s.phase := by cases e <;> rfl
@[simp] theorem setFlag_initDone (e : ErrorFlag) (s : State) : (s.setFlag e).initDone = s.initDone := by cases e <;> rfl
@[simp] theorem setFlag_merges (e : ErrorFlag) (s : State) : (s.setFlag e).merges = s.merges := by cases e <;> rfl
@[simp] theorem setFlag_freq (e : ErrorFlag) (s : State) : (s.setFlag e).freq = s.freq := by cases e <;> rfl
@[simp] theorem setFlag_nodes (e : ErrorFlag) (s : State) : (s.setFlag e).nodes = s.nodes := by cases e <;> rfl
@[simp] theorem setFlag_treeValid (e : ErrorFlag) (s : State) : (s.setFlag e).treeValid = s.treeValid := by cases e <;> rfl
@[simp] theorem setFlag_inputs (e : ErrorFlag) (s : State) : (s.setFlag e).inputs = s.inputs := by cases e <;> rfl
@[simp] theorem setFlag_rdata (e : ErrorFlag) (s : State) : (s.setFlag e).rdata = s.rdata := by cases e <;> rfl
@[simp] theorem setFlag_portOut (e : ErrorFlag) (s : State) : (s.setFlag e).portOut = s.portOut := by cases e <;> rfl
@[simp] theorem setFlag_resets (e : ErrorFlag) (s : State) : (s.setFlag e).resets = s.resets := by cases e <;> rfl

@[simp] theorem setFlag_flag (e e' : ErrorFlag) (s : State) :
    (s.setFlag e).flag e' = (s.flag e' || decide (e' = e)) := by
  cases e <;> cases e' <;> simp [State.flag, State.setFlag]

/-! ### All error flags -/

@[simp] theorem clearFlags_phase (s : State) : (s.clearFlags).phase = s.phase := rfl
@[simp] theorem clearFlags_initDone (s : State) : (s.clearFlags).initDone = s.initDone := rfl
@[simp] theorem clearFlags_merges (s : State) : (s.clearFlags).merges = s.merges := rfl
@[simp] theorem clearFlags_freq (s : State) : (s.clearFlags).freq = s.freq := rfl
@[simp] theorem clearFlags_nodes (s : State) : (s.clearFlags).nodes = s.nodes := rfl
@[simp] theorem clearFlags_treeValid (s : State) : (s.clearFlags).treeValid = s.treeValid := rfl
@[simp] theorem clearFlags_errOvf (s : State) : (s.clearFlags).errOvf = false := rfl
@[simp] theorem clearFlags_errCmd (s : State) : (s.clearFlags).errCmd = false := rfl
@[simp] theorem clearFlags_errBusy (s : State) : (s.clearFlags).errBusy = false := rfl
@[simp] theorem clearFlags_errAddr (s : State) : (s.clearFlags).errAddr = false := rfl
@[simp] theorem clearFlags_inputs (s : State) : (s.clearFlags).inputs = s.inputs := rfl
@[simp] theorem clearFlags_rdata (s : State) : (s.clearFlags).rdata = s.rdata := rfl
@[simp] theorem clearFlags_portOut (s : State) : (s.clearFlags).portOut = s.portOut := rfl
@[simp] theorem clearFlags_resets (s : State) : (s.clearFlags).resets = s.resets := rfl

/-! ### A FREQ write -/

@[simp] theorem writeFreq_phase (i : Sym) (v : Word) (s : State) : (writeFreq i v s).phase = s.phase := rfl
@[simp] theorem writeFreq_initDone (i : Sym) (v : Word) (s : State) : (writeFreq i v s).initDone = s.initDone := rfl
@[simp] theorem writeFreq_merges (i : Sym) (v : Word) (s : State) : (writeFreq i v s).merges = s.merges := rfl
@[simp] theorem writeFreq_freq (i : Sym) (v : Word) (s : State) : (writeFreq i v s).freq = s.freq.set i (.written v) := rfl
@[simp] theorem writeFreq_nodes (i : Sym) (v : Word) (s : State) : (writeFreq i v s).nodes = s.nodes := rfl
@[simp] theorem writeFreq_treeValid (i : Sym) (v : Word) (s : State) : (writeFreq i v s).treeValid = s.treeValid := rfl
@[simp] theorem writeFreq_errOvf (i : Sym) (v : Word) (s : State) : (writeFreq i v s).errOvf = s.errOvf := rfl
@[simp] theorem writeFreq_errCmd (i : Sym) (v : Word) (s : State) : (writeFreq i v s).errCmd = s.errCmd := rfl
@[simp] theorem writeFreq_errBusy (i : Sym) (v : Word) (s : State) : (writeFreq i v s).errBusy = s.errBusy := rfl
@[simp] theorem writeFreq_errAddr (i : Sym) (v : Word) (s : State) : (writeFreq i v s).errAddr = s.errAddr := rfl
@[simp] theorem writeFreq_inputs (i : Sym) (v : Word) (s : State) : (writeFreq i v s).inputs = s.inputs := rfl
@[simp] theorem writeFreq_rdata (i : Sym) (v : Word) (s : State) : (writeFreq i v s).rdata = s.rdata := rfl
@[simp] theorem writeFreq_portOut (i : Sym) (v : Word) (s : State) : (writeFreq i v s).portOut = s.portOut := rfl
@[simp] theorem writeFreq_resets (i : Sym) (v : Word) (s : State) : (writeFreq i v s).resets = s.resets := rfl

/-! ### An accepted BUILD -/

@[simp] theorem startBuild_phase (s : State) : (startBuild s).phase = .building := rfl
@[simp] theorem startBuild_initDone (s : State) : (startBuild s).initDone = false := rfl
@[simp] theorem startBuild_merges (s : State) : (startBuild s).merges = 0#9 := rfl
@[simp] theorem startBuild_freq (s : State) : (startBuild s).freq = s.freq := rfl
@[simp] theorem startBuild_nodes (s : State) : (startBuild s).nodes = invalidateStore s.nodes := rfl
@[simp] theorem startBuild_treeValid (s : State) : (startBuild s).treeValid = false := rfl
@[simp] theorem startBuild_errOvf (s : State) : (startBuild s).errOvf = false := rfl
@[simp] theorem startBuild_errCmd (s : State) : (startBuild s).errCmd = s.errCmd := rfl
@[simp] theorem startBuild_errBusy (s : State) : (startBuild s).errBusy = s.errBusy := rfl
@[simp] theorem startBuild_errAddr (s : State) : (startBuild s).errAddr = s.errAddr := rfl
@[simp] theorem startBuild_inputs (s : State) : (startBuild s).inputs = s.inputs := rfl
@[simp] theorem startBuild_rdata (s : State) : (startBuild s).rdata = s.rdata := rfl
@[simp] theorem startBuild_portOut (s : State) : (startBuild s).portOut = s.portOut := rfl
@[simp] theorem startBuild_resets (s : State) : (startBuild s).resets = s.resets := rfl

/-! ### An accepted CLEAR_FREQ -/

@[simp] theorem startClear_phase (s : State) : (startClear s).phase = .clearing := rfl
@[simp] theorem startClear_initDone (s : State) : (startClear s).initDone = s.initDone := rfl
@[simp] theorem startClear_merges (s : State) : (startClear s).merges = s.merges := rfl
@[simp] theorem startClear_freq (s : State) : (startClear s).freq = s.freq := rfl
@[simp] theorem startClear_nodes (s : State) : (startClear s).nodes = s.nodes := rfl
@[simp] theorem startClear_treeValid (s : State) : (startClear s).treeValid = s.treeValid := rfl
@[simp] theorem startClear_errOvf (s : State) : (startClear s).errOvf = s.errOvf := rfl
@[simp] theorem startClear_errCmd (s : State) : (startClear s).errCmd = s.errCmd := rfl
@[simp] theorem startClear_errBusy (s : State) : (startClear s).errBusy = s.errBusy := rfl
@[simp] theorem startClear_errAddr (s : State) : (startClear s).errAddr = s.errAddr := rfl
@[simp] theorem startClear_inputs (s : State) : (startClear s).inputs = s.inputs := rfl
@[simp] theorem startClear_rdata (s : State) : (startClear s).rdata = s.rdata := rfl
@[simp] theorem startClear_portOut (s : State) : (startClear s).portOut = s.portOut := rfl
@[simp] theorem startClear_resets (s : State) : (startClear s).resets = s.resets := rfl

/-! ### The CLEAR step -/

@[simp] theorem clearStep_phase (s : State) : (clearStep s).phase = .idle := rfl
@[simp] theorem clearStep_initDone (s : State) : (clearStep s).initDone = s.initDone := rfl
@[simp] theorem clearStep_merges (s : State) : (clearStep s).merges = s.merges := rfl
@[simp] theorem clearStep_freq (s : State) : (clearStep s).freq = Vector.replicate 257 (.written 0#32) := rfl
@[simp] theorem clearStep_nodes (s : State) : (clearStep s).nodes = s.nodes := rfl
@[simp] theorem clearStep_treeValid (s : State) : (clearStep s).treeValid = s.treeValid := rfl
@[simp] theorem clearStep_errOvf (s : State) : (clearStep s).errOvf = s.errOvf := rfl
@[simp] theorem clearStep_errCmd (s : State) : (clearStep s).errCmd = s.errCmd := rfl
@[simp] theorem clearStep_errBusy (s : State) : (clearStep s).errBusy = s.errBusy := rfl
@[simp] theorem clearStep_errAddr (s : State) : (clearStep s).errAddr = s.errAddr := rfl
@[simp] theorem clearStep_inputs (s : State) : (clearStep s).inputs = s.inputs := rfl
@[simp] theorem clearStep_rdata (s : State) : (clearStep s).rdata = s.rdata := rfl
@[simp] theorem clearStep_portOut (s : State) : (clearStep s).portOut = s.portOut := rfl
@[simp] theorem clearStep_resets (s : State) : (clearStep s).resets = s.resets := rfl

/-! ### A consumer step -/

@[simp] theorem consumerStep_phase (idx : NodePtr) (s : State) : (consumerStep idx s).phase = s.phase := rfl
@[simp] theorem consumerStep_initDone (idx : NodePtr) (s : State) : (consumerStep idx s).initDone = s.initDone := rfl
@[simp] theorem consumerStep_merges (idx : NodePtr) (s : State) : (consumerStep idx s).merges = s.merges := rfl
@[simp] theorem consumerStep_freq (idx : NodePtr) (s : State) : (consumerStep idx s).freq = s.freq := rfl
@[simp] theorem consumerStep_nodes (idx : NodePtr) (s : State) : (consumerStep idx s).nodes = s.nodes := rfl
@[simp] theorem consumerStep_treeValid (idx : NodePtr) (s : State) : (consumerStep idx s).treeValid = s.treeValid := rfl
@[simp] theorem consumerStep_errOvf (idx : NodePtr) (s : State) : (consumerStep idx s).errOvf = s.errOvf := rfl
@[simp] theorem consumerStep_errCmd (idx : NodePtr) (s : State) : (consumerStep idx s).errCmd = s.errCmd := rfl
@[simp] theorem consumerStep_errBusy (idx : NodePtr) (s : State) : (consumerStep idx s).errBusy = s.errBusy := rfl
@[simp] theorem consumerStep_errAddr (idx : NodePtr) (s : State) : (consumerStep idx s).errAddr = s.errAddr := rfl
@[simp] theorem consumerStep_inputs (idx : NodePtr) (s : State) : (consumerStep idx s).inputs = s.inputs := rfl
@[simp] theorem consumerStep_rdata (idx : NodePtr) (s : State) : (consumerStep idx s).rdata = s.rdata := rfl
@[simp] theorem consumerStep_portOut (idx : NodePtr) (s : State) : (consumerStep idx s).portOut = some { link := portLink s idx, weight := portWeight s idx } := rfl
@[simp] theorem consumerStep_resets (idx : NodePtr) (s : State) : (consumerStep idx s).resets = s.resets := rfl

/-! ### Reset -/

@[simp] theorem takeReset_phase (s : State) : (takeReset s).phase = .idle := rfl
@[simp] theorem takeReset_initDone (s : State) : (takeReset s).initDone = false := rfl
@[simp] theorem takeReset_merges (s : State) : (takeReset s).merges = 0#9 := rfl
@[simp] theorem takeReset_freq (s : State) : (takeReset s).freq = Vector.replicate 257 .unwritten := rfl
@[simp] theorem takeReset_nodes (s : State) : (takeReset s).nodes = invalidateStore s.nodes := rfl
@[simp] theorem takeReset_treeValid (s : State) : (takeReset s).treeValid = false := rfl
@[simp] theorem takeReset_errOvf (s : State) : (takeReset s).errOvf = false := rfl
@[simp] theorem takeReset_errCmd (s : State) : (takeReset s).errCmd = false := rfl
@[simp] theorem takeReset_errBusy (s : State) : (takeReset s).errBusy = false := rfl
@[simp] theorem takeReset_errAddr (s : State) : (takeReset s).errAddr = false := rfl
@[simp] theorem takeReset_inputs (s : State) : (takeReset s).inputs = s.inputs := rfl
@[simp] theorem takeReset_rdata (s : State) : (takeReset s).rdata = none := rfl
@[simp] theorem takeReset_portOut (s : State) : (takeReset s).portOut = none := rfl
@[simp] theorem takeReset_resets (s : State) : (takeReset s).resets = s.resets + 1 := rfl

/-! ### A placed transaction -/

@[simp] theorem placeTransaction_phase (t : Transaction) (s : State) : (placeTransaction t s).phase = s.phase := rfl
@[simp] theorem placeTransaction_initDone (t : Transaction) (s : State) : (placeTransaction t s).initDone = s.initDone := rfl
@[simp] theorem placeTransaction_merges (t : Transaction) (s : State) : (placeTransaction t s).merges = s.merges := rfl
@[simp] theorem placeTransaction_freq (t : Transaction) (s : State) : (placeTransaction t s).freq = s.freq := rfl
@[simp] theorem placeTransaction_nodes (t : Transaction) (s : State) : (placeTransaction t s).nodes = s.nodes := rfl
@[simp] theorem placeTransaction_treeValid (t : Transaction) (s : State) : (placeTransaction t s).treeValid = s.treeValid := rfl
@[simp] theorem placeTransaction_errOvf (t : Transaction) (s : State) : (placeTransaction t s).errOvf = s.errOvf := rfl
@[simp] theorem placeTransaction_errCmd (t : Transaction) (s : State) : (placeTransaction t s).errCmd = s.errCmd := rfl
@[simp] theorem placeTransaction_errBusy (t : Transaction) (s : State) : (placeTransaction t s).errBusy = s.errBusy := rfl
@[simp] theorem placeTransaction_errAddr (t : Transaction) (s : State) : (placeTransaction t s).errAddr = s.errAddr := rfl
@[simp] theorem placeTransaction_inputs (t : Transaction) (s : State) : (placeTransaction t s).inputs = .host t :: s.inputs := rfl
@[simp] theorem placeTransaction_rdata (t : Transaction) (s : State) : (placeTransaction t s).rdata = s.rdata := rfl
@[simp] theorem placeTransaction_portOut (t : Transaction) (s : State) : (placeTransaction t s).portOut = s.portOut := rfl
@[simp] theorem placeTransaction_resets (t : Transaction) (s : State) : (placeTransaction t s).resets = s.resets := rfl

/-! ### Flags by name -/

@[simp] theorem flag_ovf (s : State) : s.flag .ovf = s.errOvf := rfl
@[simp] theorem flag_cmd (s : State) : s.flag .cmd = s.errCmd := rfl
@[simp] theorem flag_busy (s : State) : s.flag .busy = s.errBusy := rfl
@[simp] theorem flag_addr (s : State) : s.flag .addr = s.errAddr := rfl

/-- Two states with equal fields are equal. -/
theorem State.ext_fields {s t : State} (h1 : s.phase = t.phase) (h2 : s.initDone = t.initDone)
    (h3 : s.merges = t.merges) (h4 : s.freq = t.freq) (h5 : s.nodes = t.nodes) (h6 : s.treeValid = t.treeValid)
    (h7 : ∀ e, s.flag e = t.flag e) (h8 : s.inputs = t.inputs) (h9 : s.rdata = t.rdata)
    (h10 : s.portOut = t.portOut) (h11 : s.resets = t.resets) : s = t := by
  have ho := h7 .ovf
  have hc := h7 .cmd
  have hb := h7 .busy
  have ha := h7 .addr
  cases s
  cases t
  simp_all

end Sys2Proof.Machine
end

