-- ==== Sys2Proof/Laws/Store.lean ====
section
/-! SUPPORT. The laws of the two register files: reading an entry after each operation that writes FREQ or the node
store. -/

namespace Sys2Proof.Machine

@[simp] theorem tabulate_get {α : Type} {n : Nat} (f : Fin n → α) (i : Fin n) : (tabulate f)[i] = f i := by
  simp [tabulate]

theorem tabulate_getElem {α : Type} {n : Nat} (f : Fin n → α) (i : Nat) (h : i < n) :
    (tabulate f)[i] = f ⟨i, h⟩ := tabulate_get f ⟨i, h⟩

/-! ### FREQ -/

/-- A FREQ write read back: the entry written, and every other entry as before. -/
theorem writeFreq_get (i j : Sym) (v : Word) (s : State) :
    (writeFreq i v s).freq[j] = if j = i then .written v else s.freq[j] := by
  by_cases h : j = i
  · subst h
    simp
  · have h' : i.val ≠ j.val := fun e => h (Fin.ext e.symm)
    simp [h, Vector.getElem_set_ne _ _ h']

/-- After a FREQ write every other entry reads as before. -/
theorem freqValue_writeFreq (i j : Sym) (v : Word) (s : State) :
    freqValue (writeFreq i v s) j = if j = i then v else freqValue s j := by
  unfold freqValue
  rw [writeFreq_get]
  by_cases h : j = i <;> simp [h]

/-- FREQ values depend only on FREQ and on the reset count. -/
theorem freqValue_congr {s t : State} (hf : t.freq = s.freq) (hr : t.resets = s.resets) (i : Sym) :
    freqValue t i = freqValue s i := by
  simp [freqValue, hf, hr]

/-- After the CLEAR step every entry reads 0. -/
theorem freqValue_clearStep (s : State) (i : Sym) : freqValue (clearStep s) i = 0#32 := by
  simp [freqValue]

/-! ### Node store -/

@[simp] theorem invalidateStore_get (nodes : Vector Node 513) (n : NodeId) :
    (invalidateStore nodes)[n] = invalidateNode nodes[n] := by
  simp [invalidateStore]

@[simp] theorem viewNode_invalidateNode (e : Node) : viewNode (invalidateNode e) = none := rfl

theorem nodeLink_invalid {e : Node} (h : e.valid = false) : nodeLink e = 0#32 := by simp [nodeLink, h]

theorem nodeWeight_invalid {e : Node} (h : e.valid = false) : nodeWeight e = 0#32 := by simp [nodeWeight, h]

/-- An update read back: the entry updated, and every other entry as before. -/
theorem updateNode_get (m : Nat) (f : Node → Node) (nodes : Vector Node 513) (n : NodeId) :
    (updateNode m f nodes)[n] = if n.val = m then f nodes[n] else nodes[n] := by
  unfold updateNode
  by_cases hm : m < 513
  · by_cases h : n.val = m
    · subst h
      simp
    · have h' : m ≠ n.val := fun e => h e.symm
      simp [hm, h, Vector.getElem_set_ne _ _ h']
  · have h : n.val ≠ m := by
      have := n.isLt
      omega
    simp [hm, h]

/-- What a merge writes (41_tree_build.md R147): node 257 + k, the QUEUED bits of A and B, and nothing else. -/
theorem mergeNodes_get (k : Nat) (a b : Key) (nodes : Vector Node 513) (n : NodeId) :
    (mergeNodes k a b nodes)[n] =
      if n.val = 257 + k then internalNode a b
      else if n.val = a.id ∨ n.val = b.id then dequeue nodes[n] else nodes[n] := by
  unfold mergeNodes
  rw [updateNode_get, updateNode_get, updateNode_get]
  by_cases h : n.val = 257 + k
  · simp [h]
  · by_cases ha : n.val = a.id <;> by_cases hb : n.val = b.id <;> simp_all [dequeue]

/-- What INIT writes (41_tree_build.md R144): the leaves 0..256, and nothing else. -/
theorem writeLeaves_get (queued : Bool) (s : State) (n : NodeId) :
    (writeLeaves queued s)[n] =
      if h : n.val < 257 then leafNode queued n.val (freqValue s ⟨n.val, h⟩) else s.nodes[n] :=
  tabulate_get _ n

/-- The node words depend only on the view of an entry (10_state.md R26). -/
theorem nodeWords_of_view {e e' : Node} (h : viewNode e = viewNode e') :
    nodeLink e = nodeLink e' ∧ nodeWeight e = nodeWeight e' := by
  cases hv : e.valid <;> cases hv' : e'.valid
  · simp [nodeLink, nodeWeight, hv, hv']
  · simp [viewNode, hv, hv'] at h
  · simp [viewNode, hv, hv'] at h
  · simp only [viewNode, hv, hv', if_true, Option.some.injEq, NodeView.mk.injEq, BitVec.toNat_inj] at h
    obtain ⟨h1, h2, h3, h4, h5, h6⟩ := h
    simp [nodeLink, nodeWeight, packNode, hv, hv', h1, h2, h3, h4, h5, h6]

end Sys2Proof.Machine
end

