-- ==== Sys2Proof/Laws/Selection.lean ====
section
/-! SUPPORT. The key order is a strict total order, `leastKey` finds the least key, and the queue holds exactly the keys
of the valid and queued entries. -/

namespace Sys2Proof.Machine

/-- The key order in words (41_tree_build.md R145). -/
theorem Key.lt_iff (a b : Key) : a.lt b = true ↔ a.weight < b.weight ∨ (a.weight = b.weight ∧ a.id < b.id) := by
  simp [Key.lt]

theorem Key.lt_irrefl (a : Key) : a.lt a = false := by
  simp [Key.lt]

theorem Key.lt_trans {a b c : Key} (h : a.lt b = true) (h' : b.lt c = true) : a.lt c = true := by
  rw [Key.lt_iff] at *
  omega

/-- Keys of different nodes are ordered one way or the other. -/
theorem Key.lt_or_lt {a b : Key} (h : a ≠ b) : a.lt b = true ∨ b.lt a = true := by
  rw [Key.lt_iff, Key.lt_iff]
  have : a.weight ≠ b.weight ∨ a.id ≠ b.id := by
    by_contra hc
    push Not at hc
    exact h (by cases a; cases b; simp_all)
  omega

theorem leastKey_eq_none {l : List Key} : leastKey l = none ↔ l = [] := by
  cases l with
  | nil => simp [leastKey]
  | cons x xs =>
    simp only [leastKey]
    cases leastKey xs with
    | none => simp
    | some m => by_cases h : m.lt x = true <;> simp [h]

/-- The least key is a member and lies below every other member. -/
theorem leastKey_spec {l : List Key} {m : Key} (h : leastKey l = some m) :
    m ∈ l ∧ ∀ x ∈ l, x ≠ m → m.lt x = true := by
  induction l generalizing m with
  | nil => simp [leastKey] at h
  | cons x xs ih =>
    simp only [leastKey] at h
    cases hx : leastKey xs with
    | none =>
      rw [hx] at h
      obtain rfl : x = m := by simpa using h
      rw [leastKey_eq_none] at hx
      subst hx
      simp
    | some m' =>
      rw [hx] at h
      obtain ⟨hm, hl⟩ := ih hx
      by_cases hlt : m'.lt x = true
      · obtain rfl : m' = m := by simpa [hlt] using h
        refine ⟨List.mem_cons_of_mem _ hm, fun y hy hne => ?_⟩
        rcases List.mem_cons.mp hy with rfl | hy
        · exact hlt
        · exact hl y hy hne
      · obtain rfl : x = m := by simpa [hlt] using h
        refine ⟨List.mem_cons_self, fun y hy hne => ?_⟩
        rcases List.mem_cons.mp hy with rfl | hy
        · exact absurd rfl hne
        · by_cases hxm : x = m'
          · exact hxm ▸ hl y hy (hxm ▸ hne)
          · have hxm' : x.lt m' = true := (Key.lt_or_lt hxm).resolve_right hlt
            by_cases hym : y = m'
            · exact hym ▸ hxm'
            · exact Key.lt_trans hxm' (hl y hy hym)

/-- A member below every other member is the least key. -/
theorem leastKey_unique {l : List Key} {m : Key} (hm : m ∈ l) (hl : ∀ x ∈ l, x ≠ m → m.lt x = true) :
    leastKey l = some m := by
  cases h : leastKey l with
  | none =>
    rw [leastKey_eq_none] at h
    simp [h] at hm
  | some m' =>
    obtain ⟨hm', hl'⟩ := leastKey_spec h
    by_contra hne
    have hne' : m' ≠ m := fun e => hne (by rw [e])
    have h1 := hl m' hm' hne'
    have h2 := hl' m hm hne'.symm
    have := Key.lt_trans h1 h2
    rw [Key.lt_irrefl] at this
    exact absurd this (by simp)

@[simp] theorem mem_withoutId {n : Nat} {q : List Key} {x : Key} : x ∈ withoutId n q ↔ x ∈ q ∧ x.id ≠ n := by
  simp [withoutId]

/-- What a selection gives: A least of all, B least of the rest (41_tree_build.md R146). -/
theorem selectPair_spec {q : List Key} {a b : Key} (h : selectPair q = some (a, b)) :
    a ∈ q ∧ b ∈ q ∧ b.id ≠ a.id ∧ (∀ x ∈ q, x ≠ a → a.lt x = true) ∧
      ∀ x ∈ q, x.id ≠ a.id → x ≠ b → b.lt x = true := by
  unfold selectPair at h
  cases ha : leastKey q with
  | none => simp [ha] at h
  | some a' =>
    cases hb : leastKey (withoutId a'.id q) with
    | none => simp [ha, hb] at h
    | some b' =>
      simp only [ha, hb, Option.some.injEq, Prod.mk.injEq] at h
      obtain ⟨rfl, rfl⟩ := h
      obtain ⟨h1, h2⟩ := leastKey_spec ha
      obtain ⟨h3, h4⟩ := leastKey_spec hb
      rw [mem_withoutId] at h3
      exact ⟨h1, h3.1, h3.2, h2, fun x hx hn hne => h4 x (mem_withoutId.mpr ⟨hx, hn⟩) hne⟩

/-- A pair that is least and next least is the one selected. -/
theorem selectPair_unique {q : List Key} {a b : Key} (ha : a ∈ q) (hb : b ∈ q) (hne : b.id ≠ a.id)
    (hla : ∀ x ∈ q, x ≠ a → a.lt x = true) (hlb : ∀ x ∈ q, x.id ≠ a.id → x ≠ b → b.lt x = true) :
    selectPair q = some (a, b) := by
  have h1 : leastKey q = some a := leastKey_unique ha hla
  have h2 : leastKey (withoutId a.id q) = some b :=
    leastKey_unique (mem_withoutId.mpr ⟨hb, hne⟩) fun x hx hxb =>
      hlb x (mem_withoutId.mp hx).1 (mem_withoutId.mp hx).2 hxb
  simp [selectPair, h1, h2]

/-- Q holds the keys of the valid and queued entries and nothing else (10_state.md R27). -/
theorem mem_queueOf {nodes : Vector Node 513} {x : Key} :
    x ∈ queueOf nodes ↔ ∃ n : NodeId, x = { weight := nodes[n].weight.toNat, id := n.val } ∧
      nodes[n].valid = true ∧ nodes[n].queued = true := by
  simp only [queueOf, List.mem_filterMap, queuedKey]
  constructor
  · rintro ⟨⟨e, n⟩, hp, hx⟩
    rw [List.mem_zipIdx_iff_getElem?] at hp
    obtain ⟨hn, he⟩ := List.getElem?_eq_some_iff.mp hp
    simp only [Vector.length_toList] at hn
    simp only [Vector.getElem_toList] at he
    by_cases hv : (e.valid && e.queued) = true
    · simp only [hv, if_true, Option.some.injEq] at hx
      simp only [Bool.and_eq_true] at hv
      exact ⟨⟨n, hn⟩, by simp [← hx, ← he], by simpa [← he] using hv.1, by simpa [← he] using hv.2⟩
    · simp [hv] at hx
  · rintro ⟨n, rfl, hv, hq⟩
    refine ⟨(nodes[n], n.val), ?_, by rw [hv, hq]; simp⟩
    rw [List.mem_zipIdx_iff_getElem?]
    simp

end Sys2Proof.Machine
end

