-- ==== Sys2Proof/Laws/Forest.lean ====
section
/-! SUPPORT. The pure build: what holds of it after any number of merges (sizes, ids, weights, children), by one
induction. -/

namespace Sys2Proof.Machine

/-- The weight of node `n` in a build of `f` (41_tree_build.md R156). -/
def Forest.weightOf (f : List Nat) (F : Forest) (n : Nat) : Nat :=
  if n < 257 then f.getD n 0 else
    match F.made[n - 257]? with
    | some m => m.weight
    | none => 0

/-- What holds of every stage of a build of a 257-entry table. -/
structure ForestInv (f : List Nat) (F : Forest) : Prop where
  /-- One node leaves Q for each merge (10_state.md R27). -/
  size : F.queue.length + F.made.length = 257
  idsDistinct : (F.queue.map Key.id).Nodup
  idsMade : ∀ x ∈ F.queue, x.id < 257 + F.made.length
  weights : ∀ x ∈ F.queue, x.weight = F.weightOf f x.id
  /-- The weights in Q add up to the total (41_tree_build.md R150, R151). -/
  total : (F.queue.map Key.weight).sum = f.sum
  /-- Children are nodes already in the store (41_tree_build.md R147). -/
  children : ∀ (j : Nat) (m : Merged), F.made[j]? = some m → m.left < 257 + j ∧ m.right < 257 + j
  madeWeights : ∀ (j : Nat) (m : Merged), F.made[j]? = some m → m.weight ≤ f.sum

theorem leafKeys_ids (f : List Nat) : (leafKeys f).map Key.id = List.range f.length := by
  simp only [leafKeys, List.map_map]
  rw [show (Key.id ∘ fun p : Nat × Nat => { weight := p.1, id := p.2 }) = Prod.snd from rfl]
  simp [List.zipIdx_map_snd, List.range_eq_range']

theorem leafKeys_weights (f : List Nat) : (leafKeys f).map Key.weight = f := by
  simp only [leafKeys, List.map_map]
  rw [show (Key.weight ∘ fun p : Nat × Nat => { weight := p.1, id := p.2 }) = Prod.fst from rfl]
  simp [List.zipIdx_map_fst]

/-- The build starts with the 257 leaves in Q. -/
theorem forestInv_start {f : List Nat} (hf : f.length = 257) : ForestInv f (Forest.start f) where
  size := by
    have := congrArg List.length (leafKeys_ids f)
    simp only [List.length_map, List.length_range] at this
    simp [Forest.start, this, hf]
  idsDistinct := by
    rw [Forest.start, leafKeys_ids]
    exact List.nodup_range
  idsMade x hx := by
    have := List.mem_map_of_mem (f := Key.id) hx
    rw [Forest.start, leafKeys_ids, List.mem_range] at this
    simp only [Forest.start, List.length_nil]
    omega
  weights x hx := by
    simp only [Forest.start, leafKeys, List.mem_map] at hx
    obtain ⟨⟨w, n⟩, hp, rfl⟩ := hx
    rw [List.mem_zipIdx_iff_getElem?] at hp
    have hn : n < 257 := by
      have := (List.getElem?_eq_some_iff.mp hp).1
      omega
    simp only at hp
    simp [Forest.weightOf, hn, List.getD_eq_getElem?_getD, hp]
  total := by rw [Forest.start, leafKeys_weights]
  children j m h := by simp [Forest.start] at h
  madeWeights j m h := by simp [Forest.start] at h

/-- Taking one key out of a list with distinct ids takes out exactly that key. -/
theorem withoutId_perm {q : List Key} {a : Key} (hd : (q.map Key.id).Nodup) (ha : a ∈ q) :
    List.Perm q (a :: withoutId a.id q) := by
  induction q with
  | nil => simp at ha
  | cons x xs ih =>
    simp only [List.map_cons, List.nodup_cons] at hd
    rcases List.mem_cons.mp ha with rfl | hmem
    · have hxs : withoutId a.id xs = xs := by
        simp only [withoutId, List.filter_eq_self]
        intro y hy
        have : y.id ≠ a.id := fun e => hd.1 (List.mem_map.mpr ⟨y, hy, e⟩)
        simpa using this
      rw [show withoutId a.id (a :: xs) = withoutId a.id xs by simp [withoutId], hxs]
    · have hne : x.id ≠ a.id := fun e => hd.1 (List.mem_map.mpr ⟨a, hmem, e.symm⟩)
      rw [show withoutId a.id (x :: xs) = x :: withoutId a.id xs by simp [withoutId, hne]]
      exact ((ih hd.2 hmem).cons x).trans (List.Perm.swap a x _)

/-- A queue of two keys or more with distinct ids gives a pair (41_tree_build.md R146: "Both always exist"). -/
theorem selectPair_exists {q : List Key} (hd : (q.map Key.id).Nodup) (hl : 2 ≤ q.length) :
    ∃ a b, selectPair q = some (a, b) := by
  cases ha : leastKey q with
  | none =>
    rw [leastKey_eq_none] at ha
    simp [ha] at hl
  | some a =>
    have hp := (withoutId_perm hd (leastKey_spec ha).1).length_eq
    cases hb : leastKey (withoutId a.id q) with
    | none =>
      rw [leastKey_eq_none] at hb
      simp [hb] at hp
      omega
    | some b => exact ⟨a, b, by simp [selectPair, ha, hb]⟩

/-- A selected pair and the rest of a queue make up the queue. -/
theorem selectPair_perm {q : List Key} {a b : Key} (hd : (q.map Key.id).Nodup) (h : selectPair q = some (a, b)) :
    List.Perm q (a :: b :: withoutId b.id (withoutId a.id q)) := by
  obtain ⟨ha, hb, hne, -, -⟩ := selectPair_spec h
  have hp := withoutId_perm hd ha
  have hd' : ((withoutId a.id q).map Key.id).Nodup := by
    have := (hp.map Key.id).nodup_iff.mp hd
    simp only [List.map_cons, List.nodup_cons] at this
    exact this.2
  exact hp.trans ((withoutId_perm hd' (mem_withoutId.mpr ⟨hb, hne⟩)).cons a)

/-- One merge of a queue of two keys or more. -/
theorem Forest.merge_eq {F : Forest} {a b : Key} (h : selectPair F.queue = some (a, b)) :
    F.merge = { made := F.made ++ [{ weight := a.weight + b.weight, left := a.id, right := b.id }]
                queue := withoutId b.id (withoutId a.id F.queue) ++
                  [{ weight := a.weight + b.weight, id := 257 + F.made.length }] } := by
  simp [Forest.merge, h]

/-- The weight of a node already made does not change with a merge. -/
theorem Forest.weightOf_append {f : List Nat} {F : Forest} {m : Merged} {q : List Key} {n : Nat}
    (h : n < 257 + F.made.length) : Forest.weightOf f { made := F.made ++ [m], queue := q } n = F.weightOf f n := by
  unfold Forest.weightOf
  by_cases hn : n < 257
  · simp [hn]
  · simp [hn, List.getElem?_append_left (show n - 257 < F.made.length by omega)]

/-- A merge keeps everything that holds of a stage. -/
theorem forestInv_merge {f : List Nat} {F : Forest} (hF : ForestInv f F) (hl : 2 ≤ F.queue.length) :
    ForestInv f F.merge := by
  obtain ⟨a, b, hs⟩ := selectPair_exists hF.idsDistinct hl
  have hperm := selectPair_perm hF.idsDistinct hs
  obtain ⟨ha, hb, hne, -, -⟩ := selectPair_spec hs
  have hids := (hperm.map Key.id).nodup_iff.mp hF.idsDistinct
  have hsum := (hperm.map Key.weight).sum_eq
  have hlen := hperm.length_eq
  have hsize := hF.size
  rw [Forest.merge_eq hs]
  simp only [List.map_cons, List.nodup_cons, List.sum_cons, List.length_cons] at hids hsum hlen
  have hrest : ∀ x ∈ withoutId b.id (withoutId a.id F.queue), x ∈ F.queue := fun x hx =>
    (mem_withoutId.mp (mem_withoutId.mp hx).1).1
  constructor
  · simp only [List.length_append, List.length_cons, List.length_nil]
    omega
  · simp only [List.map_append, List.map_cons, List.map_nil]
    refine List.nodup_append.mpr ⟨hids.2.2, by simp, ?_⟩
    intro x hx y hy
    obtain ⟨k, hk, rfl⟩ := List.mem_map.mp hx
    have := hF.idsMade k (hrest k hk)
    simp only [List.mem_singleton] at hy
    omega
  · intro x hx
    simp only [List.length_append, List.length_cons, List.length_nil]
    rcases List.mem_append.mp hx with hx | hx
    · have := hF.idsMade x (hrest x hx)
      omega
    · simp only [List.mem_singleton] at hx
      simp only [hx]
      omega
  · intro x hx
    rcases List.mem_append.mp hx with hx | hx
    · rw [Forest.weightOf_append (hF.idsMade x (hrest x hx))]
      exact hF.weights x (hrest x hx)
    · simp only [List.mem_singleton] at hx
      subst hx
      simp [Forest.weightOf]
  · simp only [List.map_append, List.map_cons, List.map_nil, List.sum_append, List.sum_cons, List.sum_nil]
    have := hF.total
    omega
  · intro j m hm
    by_cases hj : j < F.made.length
    · exact hF.children j m (by rwa [List.getElem?_append_left hj] at hm)
    · have hj' : j = F.made.length := by
        have := (List.getElem?_eq_some_iff.mp hm).1
        simp only [List.length_append, List.length_cons, List.length_nil] at this
        omega
      subst hj'
      simp only [List.getElem?_concat_length, Option.some.injEq] at hm
      subst hm
      exact ⟨hF.idsMade a ha, hF.idsMade b hb⟩
  · intro j m hm
    by_cases hj : j < F.made.length
    · exact hF.madeWeights j m (by rwa [List.getElem?_append_left hj] at hm)
    · have hj' : j = F.made.length := by
        have := (List.getElem?_eq_some_iff.mp hm).1
        simp only [List.length_append, List.length_cons, List.length_nil] at this
        omega
      subst hj'
      simp only [List.getElem?_concat_length, Option.some.injEq] at hm
      subst hm
      have := hF.total
      simp only
      omega

/-- The build after `k` merges, k up to 256: 257 - k nodes in Q, k made, and the rest of `ForestInv`. -/
theorem forestInv_after {f : List Nat} (hf : f.length = 257) (k : Nat) (hk : k ≤ 256) :
    ForestInv f (Forest.after f k) ∧ (Forest.after f k).made.length = k := by
  induction k with
  | zero => exact ⟨forestInv_start hf, rfl⟩
  | succ k ih =>
    obtain ⟨hF, hm⟩ := ih (by omega)
    have hl : 2 ≤ (Forest.after f k).queue.length := by
      have := hF.size
      omega
    obtain ⟨a, b, hs⟩ := selectPair_exists hF.idsDistinct hl
    refine ⟨forestInv_merge hF hl, ?_⟩
    simp only [Forest.after, Forest.merge_eq hs, List.length_append, List.length_cons, List.length_nil, hm]

/-- The leaf weights are those of the leaf entries, one for each symbol. -/
theorem leafWeights_length (nodes : Vector Node 513) : (leafWeights nodes).length = 257 := by
  simp [leafWeights]

theorem leafWeights_getD (nodes : Vector Node 513) (n : NodeId) (h : n.val < 257) :
    (leafWeights nodes).getD n.val 0 = nodes[n].weight.toNat := by
  simp [leafWeights, List.getD_eq_getElem?_getD, h]

end Sys2Proof.Machine
end

