-- ==== Sys2Proof/Laws/Build.lean ====
section
/-! SUPPORT. The node store against the pure build: while the store is that of a build after `k` merges, its queue holds
the build's keys, and a MERGE step makes it that of the build after `k + 1`. -/

namespace Sys2Proof.Machine

theorem viewNode_some {e : Node} {v : NodeView} (h : viewNode e = some v) :
    e.valid = true ∧ v = { leaf := e.leaf, queued := e.queued, symbol := e.symbol.toNat, left := e.left.toNat,
                           right := e.right.toNat, weight := e.weight.toNat } := by
  unfold viewNode at h
  cases hv : e.valid <;> simp_all

/-- Leaf weights depend only on the weights of the leaf entries. -/
theorem leafWeights_congr {nodes nodes' : Vector Node 513}
    (h : ∀ n : NodeId, n.val < 257 → nodes'[n].weight = nodes[n].weight) : leafWeights nodes' = leafWeights nodes := by
  apply List.ext_getElem
  · rw [leafWeights_length, leafWeights_length]
  · intro i h1 h2
    rw [leafWeights_length] at h1
    have := h ⟨i, by omega⟩ h1
    simp only [leafWeights, List.getElem_map, List.getElem_take, Vector.getElem_toList]
    exact congrArg BitVec.toNat this

/-- Weight and QUEUED of an expected node are those of the build. -/
theorem expectedNode_fields {f : List Nat} {k n : Nat} {v : NodeView} (h : expectedNode f k n = some v) :
    v.weight = (Forest.after f k).weightOf f n ∧ v.queued = (Forest.after f k).queue.any fun x => x.id == n := by
  unfold expectedNode at h
  unfold Forest.weightOf
  by_cases hn : n < 257
  · simp only [hn, if_true, Option.some.injEq] at h ⊢
    subst h
    exact ⟨rfl, rfl⟩
  · simp only [hn, if_false] at h ⊢
    cases hm : (Forest.after f k).made[n - 257]? with
    | none => simp [hm] at h
    | some m =>
      simp only [hm, Option.some.injEq] at h
      subst h
      exact ⟨rfl, rfl⟩

/-- The nodes of a build after `k` merges are those of the ids below 257 + k. -/
theorem expectedNode_isSome {f : List Nat} (hf : f.length = 257) {k n : Nat} (hk : k ≤ 256) (hn : n < 257 + k) :
    ∃ v, expectedNode f k n = some v := by
  unfold expectedNode
  by_cases h : n < 257
  · simp [h]
  · have := (forestInv_after hf k hk).2
    have hl : n - 257 < (Forest.after f k).made.length := by omega
    simp [h, hl]

/-- The hardware queue and the build's queue hold the same keys (10_state.md R27, 41_tree_build.md R156). -/
theorem mem_queueOf_iff {nodes : Vector Node 513} {k : Nat} (hk : k ≤ 256) (h : StoreIsBuild nodes k) (x : Key) :
    x ∈ queueOf nodes ↔ x ∈ (Forest.after (leafWeights nodes) k).queue := by
  obtain ⟨hF, hm⟩ := forestInv_after (leafWeights_length nodes) k hk
  rw [mem_queueOf]
  constructor
  · rintro ⟨n, rfl, hv, hq⟩
    have hx := h.2 n
    rw [show viewNode nodes[n] = some _ from if_pos hv] at hx
    obtain ⟨hw, hqq⟩ := expectedNode_fields hx.symm
    simp only at hw hqq
    rw [hq] at hqq
    obtain ⟨y, hy, hyn⟩ := List.any_eq_true.mp hqq.symm
    have hyn : y.id = n.val := by simpa using hyn
    have hyw := hF.weights y hy
    rw [hyn, ← hw] at hyw
    have : y = { weight := nodes[n].weight.toNat, id := n.val } := by
      cases y
      simp_all
    rwa [← this]
  · intro hx
    have hid := hF.idsMade x hx
    have hn : x.id < 513 := by omega
    obtain ⟨v, hv⟩ := expectedNode_isSome (leafWeights_length nodes) hk (show x.id < 257 + k by omega)
    obtain ⟨hw, hq⟩ := expectedNode_fields hv
    have h2 := h.2 ⟨x.id, hn⟩
    rw [hv] at h2
    obtain ⟨h3, rfl⟩ := viewNode_some h2
    refine ⟨⟨x.id, hn⟩, ?_, h3, ?_⟩
    · have := hF.weights x hx
      simp only at hw
      cases x
      simp_all
    · simp only at hq
      rw [hq]
      exact List.any_eq_true.mpr ⟨x, hx, by simp⟩

/-- Queues with the same keys give the same pair. -/
theorem selectPair_congr {q q' : List Key} (h : ∀ x, x ∈ q ↔ x ∈ q') {a b : Key} (hs : selectPair q = some (a, b)) :
    selectPair q' = some (a, b) := by
  obtain ⟨h1, h2, h3, h4, h5⟩ := selectPair_spec hs
  exact selectPair_unique ((h a).mp h1) ((h b).mp h2) h3 (fun x hx => h4 x ((h x).mpr hx))
    fun x hx => h5 x ((h x).mpr hx)

/-- Which ids are queued after a merge: the new node, and those queued before but A and B. -/
theorem queued_after_merge (q : List Key) (a b : Key) (w new m : Nat) :
    ((withoutId b.id (withoutId a.id q) ++ [({ weight := w, id := new } : Key)]).any fun x => x.id == m) =
      if m = new then true else if m = a.id ∨ m = b.id then false else q.any fun x => x.id == m := by
  rw [List.any_append]
  by_cases h1 : m = new
  · simp [h1]
  · have hne : (new == m) = false := by simpa using fun e => h1 e.symm
    simp only [List.any_cons, List.any_nil, hne, Bool.or_false, h1, if_false]
    by_cases h2 : m = a.id ∨ m = b.id
    · simp only [h2, if_true]
      rw [List.any_eq_false]
      intro x hx
      simp only [mem_withoutId] at hx
      simp only [beq_iff_eq]
      rintro rfl
      rcases h2 with h2 | h2 <;> simp_all
    · simp only [h2, if_false]
      push Not at h2
      rw [Bool.eq_iff_iff, List.any_eq_true, List.any_eq_true]
      constructor
      · rintro ⟨x, hx, hxm⟩
        simp only [mem_withoutId] at hx
        exact ⟨x, hx.1.1, hxm⟩
      · rintro ⟨x, hx, hxm⟩
        simp only [beq_iff_eq] at hxm
        subst hxm
        exact ⟨x, by simp [hx, h2], by simp⟩

/-- The build's nodes after one more merge: the new node, A and B out of the queue, and the rest as before. -/
theorem expectedNode_succ {f : List Nat} (hf : f.length = 257) {k : Nat} (hk : k < 256) {a b : Key}
    (hs : selectPair (Forest.after f k).queue = some (a, b)) (n : Nat) :
    expectedNode f (k + 1) n =
      if n = 257 + k then
        some { leaf := false, queued := true, symbol := 0, left := a.id, right := b.id, weight := a.weight + b.weight }
      else if n = a.id ∨ n = b.id then (expectedNode f k n).map fun v => { v with queued := false }
      else expectedNode f k n := by
  have hm := (forestInv_after hf k (Nat.le_of_lt hk)).2
  unfold expectedNode
  rw [show Forest.after f (k + 1) = _ from Forest.merge_eq hs]
  simp only [queued_after_merge, hm]
  by_cases h1 : n = 257 + k
  · simp [h1, hm]
  · simp only [h1, if_false]
    by_cases h257 : n < 257
    · simp only [h257, if_true]
      split <;> rfl
    · simp only [h257, if_false]
      have hget : ((Forest.after f k).made ++ [({ weight := a.weight + b.weight, left := a.id, right := b.id } : Merged)])[n - 257]?
          = (Forest.after f k).made[n - 257]? := by
        by_cases h3 : n - 257 < k
        · exact List.getElem?_append_left (by omega)
        · rw [List.getElem?_eq_none (by simp; omega), List.getElem?_eq_none (by omega)]
      rw [hget]
      by_cases h2 : n = a.id ∨ n = b.id <;> cases (Forest.after f k).made[n - 257]? <;> simp [h2]

/-- A merge fits and leads to the store of the build after one more merge (41_tree_build.md R147, R150, R156). -/
theorem storeIsBuild_merge {nodes : Vector Node 513} {k : Nat} (hk : k < 256) (h : StoreIsBuild nodes k) {a b : Key}
    (hs : selectPair (queueOf nodes) = some (a, b)) :
    a.weight + b.weight ≤ Config.MAX_TOTAL ∧ StoreIsBuild (mergeNodes k a b nodes) (k + 1) := by
  obtain ⟨hF, hm⟩ := forestInv_after (leafWeights_length nodes) k (Nat.le_of_lt hk)
  have hs' := selectPair_congr (mem_queueOf_iff (Nat.le_of_lt hk) h) hs
  have hl : leafWeights (mergeNodes k a b nodes) = leafWeights nodes := by
    apply leafWeights_congr
    intro n hn
    rw [mergeNodes_get]
    simp only [show n.val ≠ 257 + k by omega, if_false]
    split <;> rfl
  have hsum := ((selectPair_perm hF.idsDistinct hs').map Key.weight).sum_eq
  have htot := hF.total
  have hmax := h.1
  simp only [List.map_cons, List.sum_cons] at hsum
  have hab : a.weight + b.weight ≤ Config.MAX_TOTAL := by omega
  refine ⟨hab, ?_⟩
  unfold StoreIsBuild
  rw [hl]
  refine ⟨hmax, fun n => ?_⟩
  rw [mergeNodes_get, expectedNode_succ (leafWeights_length nodes) hk hs', ← h.2 n]
  obtain ⟨ha, hb, -⟩ := selectPair_spec hs'
  have hia := hF.idsMade a ha
  have hib := hF.idsMade b hb
  by_cases h1 : n.val = 257 + k
  · simp only [Config.MAX_TOTAL] at hab
    simp [h1, viewNode, internalNode, Nat.mod_eq_of_lt (show a.id < 1024 by omega),
      Nat.mod_eq_of_lt (show b.id < 1024 by omega), Nat.mod_eq_of_lt (show a.weight + b.weight < 4294967296 by omega)]
  · simp only [h1, if_false]
    split
    · generalize nodes[n] = e
      cases hv : e.valid <;> simp [viewNode, dequeue, hv]
    · rfl

end Sys2Proof.Machine
end

