-- ==== Sys2Proof/Laws/Exec.lean ====
section
/-! SUPPORT. What a shared operation, a host transaction, a sequencer turn and a step can do, said once each. -/

namespace Sys2Proof.Machine

/-! ### Shared operations as record updates -/

theorem raiseOnWrite_busy (s : State) : raiseOnWrite .busy s = { s with errBusy := true, rdata := none } := rfl
theorem raiseOnWrite_cmd (s : State) : raiseOnWrite .cmd s = { s with errCmd := true, rdata := none } := rfl
theorem raiseOnWrite_addr (s : State) : raiseOnWrite .addr s = { s with errAddr := true, rdata := none } := rfl
theorem raiseOnRead_addr (s : State) : raiseOnRead .addr s = { s with errAddr := true, rdata := some 0#32 } := rfl

theorem clearErrors_eq (s : State) :
    clearErrors s = { s with errOvf := false, errCmd := false, errBusy := false, errAddr := false, rdata := none } := rfl

/-- The busy check, idle: the effect, and the write completes. -/
theorem whenIdle_idle {effect : State → State} {s : State} (h : s.phase = .idle) :
    whenIdle effect s = acknowledge (effect s) := by
  simp [whenIdle, h]

/-- The busy check, busy: ERR_BUSY and nothing else (70_reset_and_hazards.md R240). -/
theorem whenIdle_busy {effect : State → State} {s : State} (h : s.phase ≠ .idle) :
    whenIdle effect s = { s with errBusy := true, rdata := none } := by
  simp [whenIdle, h, raiseOnWrite_busy]

/-! ### What a host transaction can do -/

/-- The state after a host transaction, by operation: one of a mapped read, an idle command or write, a busy rejection,
a clear of the flags, and a raised error (40_host_operations.md R100 to R117). -/
theorem exec_cases {i : Instr} {s t : State} (h : exec i s = .next t) :
    (i.we = false ∧ (∀ a, i ≠ .rdUnmapped a) ∧ ∃ v, t = { s with rdata := some v }) ∨
    (i = .cmdNop ∧ t = { s with rdata := none }) ∨
    (i = .cmdBuild ∧ s.phase = .idle ∧ t = acknowledge (startBuild s)) ∨
    (i = .cmdClearf ∧ s.phase = .idle ∧ t = { s with phase := .clearing, rdata := none }) ∨
    (∃ j v, i = .wrFreq j v ∧ s.phase = .idle ∧ t = acknowledge (writeFreq j v s)) ∨
    ((i = .cmdBuild ∨ i = .cmdClearf ∨ ∃ j v, i = .wrFreq j v) ∧ s.phase ≠ .idle ∧
      t = { s with errBusy := true, rdata := none }) ∨
    (i = .cmdClearerr ∧ t = clearErrors s) ∨
    (∃ c, i = .cmdRsvd c ∧ t = { s with errCmd := true, rdata := none }) ∨
    (∃ a, i = .rdUnmapped a ∧ t = { s with errAddr := true, rdata := some 0#32 }) ∨
    (∃ a, (i = .wrRo a ∨ i = .wrUnmapped a) ∧ t = { s with errAddr := true, rdata := none }) := by
  cases i <;> simp only [exec, execRdParam, execRdCtrl, execCmdNop, execCmdBuild, execCmdClearf, execCmdClearerr,
    execCmdRsvd, execRdStatus, execRdRoot, execRdMerges, execWrFreq, execRdFreq, execRdLink, execRdWeight, execWrRo,
    execRdUnmapped, execWrUnmapped, Host.Outcome.next.injEq] at h
  case cmdBuild =>
    by_cases hp : s.phase = .idle
    · simp [← h, whenIdle_idle hp, hp]
    · simp [← h, whenIdle_busy hp, hp]
  case cmdClearf =>
    by_cases hp : s.phase = .idle
    · simp [← h, whenIdle_idle hp, hp, startClear, acknowledge]
    · simp [← h, whenIdle_busy hp, hp]
  case wrFreq j v =>
    by_cases hp : s.phase = .idle
    · simp [← h, whenIdle_idle hp, hp]
    · simp [← h, whenIdle_busy hp, hp]
  all_goals subst h
  all_goals simp [Instr.we, respond, acknowledge, raiseOnWrite, raiseOnRead, State.setFlag]

/-- Every host operation completes in every state (40_host_operations.md R100, 60_exceptions.md R201). -/
theorem exec_next (i : Instr) (s : State) : ∃ t, exec i s = .next t := by
  cases i <;> exact ⟨_, rfl⟩

/-! ### What a sequencer turn can do -/

/-- The INIT total is the sum of the FREQ values (41_tree_build.md R144). -/
theorem freqTotal_eq (s : State) : freqTotal s = (freqList s).sum := by
  unfold freqTotal freqList
  rfl

/-- FREQ values as a list depend only on FREQ and on the reset count. -/
theorem freqList_congr {s t : State} (hf : t.freq = s.freq) (hr : t.resets = s.resets) : freqList t = freqList s := by
  unfold freqList
  exact List.map_congr_left fun i _ => by rw [freqValue_congr hf hr]

/-- The state after INIT (41_tree_build.md R144). -/
theorem initStep_cases (s : State) :
    (Config.MAX_TOTAL < (freqList s).sum ∧
      initStep s = { s with nodes := writeLeaves false s, errOvf := true, phase := .idle }) ∨
    ((freqList s).sum ≤ Config.MAX_TOTAL ∧ initStep s = { s with nodes := writeLeaves true s, initDone := true }) := by
  rw [← freqTotal_eq]
  unfold initStep
  by_cases h : Config.MAX_TOTAL < freqTotal s
  · exact .inl ⟨h, if_pos h⟩
  · exact .inr ⟨Nat.le_of_not_lt h, if_neg h⟩

/-- The state after a merge that completes (41_tree_build.md R147, R148). -/
theorem mergeStep_cases {s t : State} (h : mergeStep s = .next t) :
    ∃ a b, selectPair (queueOf s.nodes) = some (a, b) ∧ a.weight + b.weight ≤ Config.MAX_TOTAL ∧ t = applyMerge a b s := by
  unfold mergeStep at h
  cases hp : selectPair (queueOf s.nodes) with
  | none => simp [hp] at h
  | some p =>
    obtain ⟨a, b⟩ := p
    by_cases hw : a.weight + b.weight ≤ Config.MAX_TOTAL
    · simp only [hp, hw, if_true, Host.Outcome.next.injEq] at h
      exact ⟨a, b, rfl, hw, h.symm⟩
    · simp [hp, hw] at h

/-- What a turn of the sequencer can do (41_tree_build.md R140): nothing, CLEAR, an INIT that aborts, an INIT
that queues the leaves, or a MERGE. -/
theorem sequencerStep_cases {s t : State} (h : sequencerStep s = .next t) :
    (enabledStep s = none ∧ t = s) ∨
    (s.phase = .clearing ∧ t = clearStep s) ∨
    (s.phase = .building ∧ s.initDone = false ∧ Config.MAX_TOTAL < (freqList s).sum ∧
      t = { s with nodes := writeLeaves false s, errOvf := true, phase := .idle }) ∨
    (s.phase = .building ∧ s.initDone = false ∧ (freqList s).sum ≤ Config.MAX_TOTAL ∧
      t = { s with nodes := writeLeaves true s, initDone := true }) ∨
    (s.phase = .building ∧ s.initDone = true ∧ s.merges.toNat < 256 ∧ ∃ a b,
      selectPair (queueOf s.nodes) = some (a, b) ∧ a.weight + b.weight ≤ Config.MAX_TOTAL ∧ t = applyMerge a b s) := by
  unfold sequencerStep at h
  cases hp : s.phase with
  | idle => exact .inl (by simp_all [enabledStep])
  | clearing => exact .inr (.inl ⟨rfl, by simp_all [enabledStep]⟩)
  | building =>
    cases hd : s.initDone with
    | false =>
      have ht : t = initStep s := by simp_all [enabledStep]
      rw [ht]
      rcases initStep_cases s with ⟨hc, he⟩ | ⟨hc, he⟩
      · exact .inr (.inr (.inl ⟨rfl, rfl, hc, by rw [he, hd]⟩))
      · exact .inr (.inr (.inr (.inl ⟨rfl, rfl, hc, by rw [he, hp]⟩)))
    | true =>
      by_cases hm : s.merges.toNat < 256
      · have he : enabledStep s = some .merge := by simp [enabledStep, hp, hd, hm]
        rw [he] at h
        exact .inr (.inr (.inr (.inr ⟨rfl, rfl, hm, mergeStep_cases h⟩)))
      · exact .inl (by simp_all [enabledStep])
  | reserved => exact .inl (by simp_all [enabledStep])

/-! ### What a step can do -/

theorem unlessReserved_next {s t : State} {r : Result} (h : unlessReserved s r = .next t) :
    s.phase ≠ .reserved ∧ r = .next t := by
  unfold unlessReserved at h
  by_cases hp : s.phase = .reserved
  · simp [hp] at h
  · exact ⟨hp, by simpa [hp] using h⟩

@[simp] theorem unlessReserved_legal {s : State} {r : Result} (h : s.phase ≠ .reserved) : unlessReserved s r = r := by
  simp [unlessReserved, h]

/-- Which agent a step served and what it did (00_scope.md R11, 20_memory.md R60). -/
theorem step_cases {s t : State} (h : step s = .next t) :
    (s.phase ≠ .reserved ∧ s.inputs = [] ∧ sequencerStep s = .next t) ∨
    (s.phase ≠ .reserved ∧ ∃ rest, s.inputs = .sequencer :: rest ∧ sequencerStep { s with inputs := rest } = .next t) ∨
    (s.phase ≠ .reserved ∧ ∃ w rest, s.inputs = .host w :: rest ∧ exec (decode w) { s with inputs := rest } = .next t) ∨
    (s.phase ≠ .reserved ∧ ∃ idx rest, s.inputs = .consumer idx :: rest ∧ t = consumerStep idx { s with inputs := rest }) ∨
    (∃ rest, s.inputs = .reset :: rest ∧ t = takeReset { s with inputs := rest }) := by
  unfold step at h
  split at h
  · next hi =>
    have h := unlessReserved_next h
    exact .inl ⟨h.1, hi, h.2⟩
  · next i rest hi =>
    cases i with
    | host w =>
      have h := unlessReserved_next h
      exact .inr (.inr (.inl ⟨h.1, w, rest, hi, h.2⟩))
    | sequencer =>
      have h := unlessReserved_next h
      exact .inr (.inl ⟨h.1, rest, hi, h.2⟩)
    | consumer idx =>
      have h := unlessReserved_next h
      exact .inr (.inr (.inr (.inl ⟨h.1, idx, rest, hi, by simpa using h.2.symm⟩)))
    | reset => exact .inr (.inr (.inr (.inr ⟨rest, hi, by simpa [takeInput] using h.symm⟩)))

end Sys2Proof.Machine
end

