-- ==== Sys2Proof/Laws/PerInstr.lean ====
section
/-! SUPPORT. The encoded fields of every instruction, one lemma per constructor: WE, ADDR and DATA of its word are the
instruction's own (30_encoding.md R70). -/

namespace Sys2Proof

theorem weOf_assemble (we : Bool) (a : Addr) (d : Word) : weOf (assemble we a d) = we := by
  simp only [weOf, assemble, BitVec.getLsbD_append]
  simp

theorem addrOf_assemble (we : Bool) (a : Addr) (d : Word) : addrOf (assemble we a d) = a := by
  apply BitVec.eq_of_getLsbD_eq
  intro i hi
  simp only [addrOf, assemble, BitVec.getLsbD_extractLsb', BitVec.getLsbD_append]
  simp [hi, show ¬ 32 + i < 32 by omega]

theorem dataOf_assemble (we : Bool) (a : Addr) (d : Word) : dataOf (assemble we a d) = d := by
  apply BitVec.eq_of_getLsbD_eq
  intro i hi
  simp only [dataOf, assemble, BitVec.getLsbD_extractLsb', BitVec.getLsbD_append]
  simp [hi]

end Sys2Proof

namespace Sys2Proof.Laws.EncodedFields

/-- The fields of the instruction's word are its WE bit, its address and its data. -/
def Statement (i : Instr) : Prop :=
  weOf (encode i) = i.we ∧ addrOf (encode i) = i.address ∧ dataOf (encode i) = i.data

theorem fields_of_encode (i : Instr) : Statement i :=
  ⟨weOf_assemble _ _ _, addrOf_assemble _ _ _, dataOf_assemble _ _ _⟩

theorem rdParam : Statement .rdParam := fields_of_encode _
theorem rdCtrl : Statement .rdCtrl := fields_of_encode _
theorem cmdNop : Statement .cmdNop := fields_of_encode _
theorem cmdBuild : Statement .cmdBuild := fields_of_encode _
theorem cmdClearf : Statement .cmdClearf := fields_of_encode _
theorem cmdClearerr : Statement .cmdClearerr := fields_of_encode _
theorem cmdRsvd (code : BitVec 4) : Statement (.cmdRsvd code) := fields_of_encode _
theorem rdStatus : Statement .rdStatus := fields_of_encode _
theorem rdRoot : Statement .rdRoot := fields_of_encode _
theorem rdMerges : Statement .rdMerges := fields_of_encode _
theorem wrFreq (i : Sym) (v : Word) : Statement (.wrFreq i v) := fields_of_encode _
theorem rdFreq (i : Sym) : Statement (.rdFreq i) := fields_of_encode _
theorem rdLink (n : NodeId) : Statement (.rdLink n) := fields_of_encode _
theorem rdWeight (n : NodeId) : Statement (.rdWeight n) := fields_of_encode _
theorem wrRo (a : Addr) : Statement (.wrRo a) := fields_of_encode _
theorem rdUnmapped (a : Addr) : Statement (.rdUnmapped a) := fields_of_encode _
theorem wrUnmapped (a : Addr) : Statement (.wrUnmapped a) := fields_of_encode _

end Sys2Proof.Laws.EncodedFields
end

