-- ==== Sys2Proof/Tests/Slice0.lean ====
section
/-! SUPPORT. The model's own tests: the well-formedness smoke, decoding of words written out from the spec, one-step
tests against 95_test_vectors.md, and for every statement with hypotheses a witness that meets them. -/

namespace Sys2Proof.Tests

open Sys2Proof.Machine

/-! ## Well-formedness: one ill-formed term for each check -/

theorem test_wf_code_below_reserved : (Instr.cmdRsvd 0x3#4).wf = false := by decide
theorem test_wf_ro_write_in_freq_window : (Instr.wrRo 0x300#12).wf = false := by decide
theorem test_wf_ro_write_to_ctrl : (Instr.wrRo 0x001#12).wf = false := by decide
theorem test_wf_unmapped_read_of_mapped : (Instr.rdUnmapped 0x600#12).wf = false := by decide
theorem test_wf_unmapped_write_of_mapped : (Instr.wrUnmapped 0xA00#12).wf = false := by decide

/-! ## Decoding: words of 95_test_vectors.md L2, one or more for every constructor -/

theorem test_decode_rdParam : decode 0x000000000000#45 = .rdParam := by decide
theorem test_decode_rdCtrl : decode 0x000100000000#45 = .rdCtrl := by decide
theorem test_decode_cmdNop_high_bits : decode 0x1001FFFFFFF0#45 = .cmdNop := by decide
theorem test_decode_cmdBuild_high_bits : decode 0x100100000011#45 = .cmdBuild := by decide
theorem test_decode_cmdClearf_high_bits : decode 0x1001ABCDEF02#45 = .cmdClearf := by decide
theorem test_decode_cmdClearerr : decode 0x100100000003#45 = .cmdClearerr := by decide
theorem test_decode_cmdRsvd_least : decode 0x100100000004#45 = .cmdRsvd 0x4#4 := by decide
theorem test_decode_cmdRsvd_greatest : decode 0x10010000000F#45 = .cmdRsvd 0xF#4 := by decide
theorem test_decode_rdStatus : decode 0x000200000000#45 = .rdStatus := by decide
theorem test_decode_rdRoot : decode 0x000300000000#45 = .rdRoot := by decide
theorem test_decode_rdMerges : decode 0x000400000000#45 = .rdMerges := by decide
theorem test_decode_wrFreq : decode 0x1241000003E8#45 = .wrFreq 65 1000#32 := by decide
theorem test_decode_wrFreq_eof : decode 0x130000000001#45 = .wrFreq 256 1#32 := by decide
theorem test_decode_rdFreq_255 : decode 0x02FF00000000#45 = .rdFreq 255 := by decide
theorem test_decode_rdFreq_eof : decode 0x030000000000#45 = .rdFreq 256 := by decide
theorem test_decode_rdLink_511 : decode 0x05FF00000000#45 = .rdLink 511 := by decide
theorem test_decode_rdLink_root : decode 0x060000000000#45 = .rdLink 512 := by decide
theorem test_decode_rdWeight_0 : decode 0x080000000000#45 = .rdWeight 0 := by decide
theorem test_decode_rdWeight_root : decode 0x0A0000000000#45 = .rdWeight 512 := by decide
theorem test_decode_wrRo_param : decode 0x100000000000#45 = .wrRo 0x000#12 := by decide
theorem test_decode_wrRo_link_512 : decode 0x160000000000#45 = .wrRo 0x600#12 := by decide
theorem test_decode_rdUnmapped_5 : decode 0x000500000000#45 = .rdUnmapped 0x005#12 := by decide
theorem test_decode_rdUnmapped_above_weights : decode 0x0A0100000000#45 = .rdUnmapped 0xA01#12 := by decide
theorem test_decode_wrUnmapped_above_freq : decode 0x130100000005#45 = .wrUnmapped 0x301#12 := by decide
theorem test_decode_all_ones : decode 0x1FFFFFFFFFFF#45 = .wrUnmapped 0xFFF#12 := by decide
theorem test_decode_rejects_46_bits : decodeTableWord 48 0x200000000000 = none := by decide
theorem test_decode_table_word : decodeTableWord 48 0x100100000001 = some .cmdBuild := by decide
theorem test_table_priorities :
    tableLookup 0x0A0000000000#45 = some .rdWeight ∧ tableLookup 0x0A0100000000#45 = some .rdUnmapped := by
  decide +kernel

/-! ## One transaction: responses and flags of 95_test_vectors.md L2.1 to L2.6 -/

/-- The state after one step, if there is one. -/
def after (s : State) : Option State :=
  match step s with
  | .next t => some t
  | .fault _ => none
  | .refused _ => none

/-- The response to one transaction word from a state. -/
def response (w : Nat) (s : State) : Option Word := (after (s.withFetchWord 48 w)).bind State.rdata

/-- STATUS as RD.STATUS returns it after one transaction word from a state. -/
def statusAfter (w : Nat) (s : State) : Option Word :=
  (after (s.withFetchWord 48 w)).bind fun t => response 0x000200000000 t

/-- A state in IDLE with a valid tree flag and MERGES = 256 (its node store left blank). -/
def idleValid : State := { State.reset with treeValid := true, merges := 256#9 }

/-- A state with a build under way, before INIT. -/
def started : State := { State.reset with phase := .building }

/-- A state with a clear under way. -/
def clearingState : State := { State.reset with phase := .clearing }

/-- The reset state with one node: node 5, a queued leaf of weight 9. -/
def oneLeaf : State := { State.reset with nodes := State.reset.nodes.set 5 (leafNode true 5 9#32) }

/-- The reset state with FREQ[65] = 1000. -/
def withCount : State := writeFreq 65 1000#32 State.reset

/-- L2.1: register reads. -/
theorem test_register_reads :
    response 0x000000000000 started = some 0x02080501#32 ∧ response 0x000100000000 started = some 0#32 ∧
      response 0x000200000000 clearingState = some 0x00000001#32 ∧
      response 0x000200000000 { idleValid with errBusy := true } = some 0x00000044#32 ∧
      response 0x000300000000 idleValid = some 0x00000200#32 ∧ response 0x000300000000 State.reset = some 0#32 ∧
      response 0x000400000000 idleValid = some 0x00000100#32 := by decide +kernel

/-- L2.2: NOP keeps the flags; BUILD clears ERR_OVF and TREE_VALID only, or is busy; CLEAR_FREQ keeps the tree, or is
busy. -/
theorem test_commands :
    statusAfter 0x1001FFFFFFF0 { idleValid with errCmd := true } = some 0x24#32 ∧
      statusAfter 0x100100000001 { idleValid with errOvf := true, errCmd := true } = some 0x22#32 ∧
      statusAfter 0x100100000001 clearingState = some 0x41#32 ∧ statusAfter 0x100100000002 idleValid = some 0x05#32 ∧
      statusAfter 0x100100000002 started = some 0x42#32 := by decide +kernel

/-- L2.2, L2.6: CLEAR_ERR while building; a reserved code goes before busy. -/
theorem test_commands_any_state :
    statusAfter 0x100100000003 { started with errBusy := true } = some 0x02#32 ∧
      statusAfter 0x100100000009 clearingState = some 0x21#32 := by decide +kernel

/-- L2.3: a FREQ write is read back, leaves its neighbour, and is rejected while busy. -/
theorem test_freq_window :
    (after (State.reset.withFetchWord 48 0x1241000003E8)).bind (response 0x024100000000) = some 0x3E8#32 ∧
      (after (withCount.withFetchWord 48 0x124200000007)).bind (response 0x024100000000) = some 0x3E8#32 ∧
      statusAfter 0x124100000007 started = some 0x42#32 := by decide +kernel

/-- L2.4: node words of a queued leaf and of an invalid entry. -/
theorem test_node_windows :
    response 0x040500000000 oneLeaf = some 0xE0500000#32 ∧ response 0x040600000000 oneLeaf = some 0#32 ∧
      response 0x080500000000 oneLeaf = some 9#32 := by decide +kernel

/-- L2.6: access errors set ERR_ADDR alone, before busy, and an unmapped read returns 0. -/
theorem test_access_errors :
    response 0x060100000000 oneLeaf = some 0#32 ∧ statusAfter 0x060100000000 started = some 0x82#32 ∧
      statusAfter 0x100200000000 { State.reset with errCmd := true, errAddr := true } = some 0xA0#32 ∧
      statusAfter 0x11FF00000000 clearingState = some 0x81#32 := by decide +kernel

/-! ## One step of the sequencer (95_test_vectors.md L2.4, L2.5) -/

/-- FREQ cleared but for FREQ[256], a build under way: the table of 95_test_vectors.md L1.1. -/
def emptyInput : State := writeFreq 256 1#32 { started with freq := Vector.replicate 257 (.written 0#32) }

/-- FREQ cleared but for two entries whose total is 2^32. -/
def tooLarge : State :=
  writeFreq 0 0xFFFFFFFF#32 (writeFreq 256 1#32 { started with freq := Vector.replicate 257 (.written 0#32) })

theorem test_clear_step_zeroes : (after { withCount with phase := .clearing }).bind (response 0x024100000000) = some 0#32 := by
  decide +kernel

/-- A store of three queued leaves of weights 1, 1 and 2 (nodes 3, 4 and 7), a merge due. -/
def threeLeaves (k : BitVec 9) : State :=
  { started with
    initDone := true, merges := k,
    nodes := ((State.reset.nodes.set 3 (leafNode true 3 1#32)).set 4 (leafNode true 4 1#32)).set 7 (leafNode true 7 2#32) }

/-- Ties go to the lower id: 3 then 4; the word is VALID, QUEUED, RIGHT = 4, LEFT = 3, and 4 leaves Q. -/
theorem test_merge_first :
    ((after (threeLeaves 0#9)).map fun t => (link t 257, link t 4)) = some (0xA0001003#32, 0xC0400000#32) := by
  decide +kernel

theorem test_merge_last_status : (after (threeLeaves 255#9)).map statusWord = some 0x04#32 := by decide +kernel

/-- The fault of one step, if it stops so. -/
def faultOf (s : State) : Option Fault :=
  match step s with
  | .next _ => none
  | .fault r => some r
  | .refused _ => none

theorem test_merge_without_queue_faults :
    faultOf { started with initDone := true } = some .queueUnderflow := by decide +kernel

/-! ## Witness states -/

/-- An entry that shows a view. -/
def nodeOfView : Option NodeView → Node
  | none => Node.blank
  | some v => { valid := true, leaf := v.leaf, queued := v.queued, symbol := BitVec.ofNat 9 v.symbol,
                left := BitVec.ofNat 10 v.left, right := BitVec.ofNat 10 v.right, weight := BitVec.ofNat 32 v.weight }

/-- The store of the pure build of a table after `k` merges. -/
def storeOfBuild (f : List Nat) (k : Nat) : Vector Node 513 := tabulate fun n => nodeOfView (expectedNode f k n.val)

theorem viewNode_nodeOfView {v : NodeView} (h1 : v.symbol < 512) (h2 : v.left < 1024) (h3 : v.right < 1024)
    (h4 : v.weight < 4294967296) : viewNode (nodeOfView (some v)) = some v := by
  simp [viewNode, nodeOfView, Nat.mod_eq_of_lt h1, Nat.mod_eq_of_lt h2, Nat.mod_eq_of_lt h3, Nat.mod_eq_of_lt h4]

theorem expectedNode_fits {f : List Nat} (hf : f.length = 257) (hs : f.sum ≤ Config.MAX_TOTAL) {k n : Nat} (hk : k ≤ 256)
    {v : NodeView} (h : expectedNode f k n = some v) :
    v.symbol < 512 ∧ v.left < 1024 ∧ v.right < 1024 ∧ v.weight < 4294967296 := by
  obtain ⟨hF, hm⟩ := forestInv_after hf k hk
  simp only [Config.MAX_TOTAL] at hs
  unfold expectedNode at h
  by_cases hn : n < 257
  · simp only [hn, if_true, Option.some.injEq] at h
    subst h
    have hw : f.getD n 0 ≤ f.sum := by
      rw [List.getD_eq_getElem?_getD, List.getElem?_eq_getElem (by omega)]
      exact List.le_sum_of_mem (List.getElem_mem _)
    exact ⟨by simp only; omega, by simp, by simp, by simp only; omega⟩
  · simp only [hn, if_false] at h
    cases hg : (Forest.after f k).made[n - 257]? with
    | none => simp [hg] at h
    | some m =>
      simp only [hg, Option.some.injEq] at h
      subst h
      have hj := (List.getElem?_eq_some_iff.mp hg).1
      have hc := hF.children _ m hg
      have hw := hF.madeWeights _ m hg
      exact ⟨by simp, by simp only; omega, by simp only; omega, by simp only; omega⟩

theorem storeOfBuild_view {f : List Nat} (hf : f.length = 257) (hs : f.sum ≤ Config.MAX_TOTAL) {k : Nat} (hk : k ≤ 256)
    (n : NodeId) : viewNode (storeOfBuild f k)[n] = expectedNode f k n.val := by
  unfold storeOfBuild
  rw [tabulate_get]
  cases h : expectedNode f k n.val with
  | none => rfl
  | some v =>
    obtain ⟨h1, h2, h3, h4⟩ := expectedNode_fits hf hs hk h
    exact viewNode_nodeOfView h1 h2 h3 h4

theorem storeOfBuild_leafWeights {f : List Nat} (hf : f.length = 257) (hs : f.sum ≤ Config.MAX_TOTAL) {k : Nat}
    (hk : k ≤ 256) : leafWeights (storeOfBuild f k) = f := by
  apply List.ext_getElem
  · rw [leafWeights_length, hf]
  · intro i h1 h2
    have hi : i < 257 := by omega
    have hv := storeOfBuild_view hf hs hk ⟨i, by omega⟩
    simp only [expectedNode, hi, if_true] at hv
    have hw := leafWeights_getD (storeOfBuild f k) ⟨i, by omega⟩ hi
    have := congrArg NodeView.weight (viewNode_some hv).2
    simp only [List.getD_eq_getElem?_getD, List.getElem?_eq_getElem h1, List.getElem?_eq_getElem h2,
      Option.getD_some] at hw this
    rw [hw, ← this]

theorem storeOfBuild_isBuild {f : List Nat} (hf : f.length = 257) (hs : f.sum ≤ Config.MAX_TOTAL) {k : Nat}
    (hk : k ≤ 256) : StoreIsBuild (storeOfBuild f k) k := by
  unfold StoreIsBuild
  rw [storeOfBuild_leafWeights hf hs hk]
  exact ⟨hs, storeOfBuild_view hf hs hk⟩

/-- The table with every count 1 (95_test_vectors.md L1.5). -/
def allOnes : List Nat := List.replicate 257 1

theorem allOnes_length : allOnes.length = 257 := List.length_replicate
theorem allOnes_sum : allOnes.sum ≤ Config.MAX_TOTAL := by decide +kernel

/-- A build of `allOnes` under way, the `k`-th merge due. -/
def merging (k : Nat) : State :=
  { started with initDone := true, merges := BitVec.ofNat 9 k, nodes := storeOfBuild allOnes k }

/-- A completed build of `allOnes`. -/
def completed : State := { idleValid with nodes := storeOfBuild allOnes 256 }

theorem merging_inv {k : Nat} (hk : k < 256) : Inv (merging k) := by
  have hb : (BitVec.ofNat 9 k).toNat = k := by
    rw [BitVec.toNat_ofNat]
    omega
  constructor
  · constructor <;> simp [merging, started, State.reset, hb] <;> omega
  · constructor
    · intro _ h
      simp [merging] at h
    · intro _ _
      simp only [merging, hb]
      exact storeOfBuild_isBuild allOnes_length allOnes_sum (Nat.le_of_lt hk)
    · intro h
      simp [merging, started, State.reset] at h
    · intro h
      simp [merging, started] at h

theorem completed_inv : Inv completed := by
  constructor
  · constructor <;> simp [completed, idleValid, State.reset]
  · constructor
    · intro h
      simp [completed, idleValid, State.reset] at h
    · intro h
      simp [completed, idleValid, State.reset] at h
    · intro _
      exact storeOfBuild_isBuild allOnes_length allOnes_sum (Nat.le_refl 256)
    · intro _ h
      simp [completed, idleValid] at h

theorem started_inv (freq : Vector FreqEntry 257) : Inv { started with freq := freq } := by
  constructor
  · constructor <;> simp [started, State.reset]
  · constructor
    · intro _ _ n
      have : State.reset.nodes[n] = Node.blank := Vector.getElem_replicate _
      simp only [started, this]
      rfl
    · intro _ h
      simp [started, State.reset] at h
    · intro h
      simp [started, State.reset] at h
    · intro h
      simp [started] at h

theorem step_quiet {s : State} (h : s.inputs = []) : step s = quietStep s := by
  unfold step
  rw [h]

theorem runFor_one {s t : State} (h : step s = .next t) : runFor 1 s = .next t := by
  have hc : Sys2Proof.core.step s = .next t := h
  unfold runFor
  simp only [Host.Core.run]
  rw [hc]
  rfl

/-- A last merge completes its build, in one step. -/
theorem lastMerge_completes {s : State} (hI : Inv s) (hq : s.inputs = []) (hp : s.phase = .building)
    (hd : s.initDone = true) (hm : s.merges.toNat = 255) :
    ∃ t, step s = .next t ∧ t.treeValid = true ∧ t.phase = .idle := by
  have hst := hI.store.duringMerges hp hd
  rw [hm] at hst
  obtain ⟨hF, hl⟩ := forestInv_after (leafWeights_length s.nodes) 255 (by decide)
  have h2 : 2 ≤ (Forest.after (leafWeights s.nodes) 255).queue.length := by
    have := hF.size
    omega
  obtain ⟨a, b, hs⟩ := selectPair_exists hF.idsDistinct h2
  have hs' := selectPair_congr (fun x => (mem_queueOf_iff (by decide) hst x).symm) hs
  have hw := (storeIsBuild_merge (by decide) hst hs').1
  have he : enabledStep s = some .merge := by simp [enabledStep, hp, hd, hm]
  refine ⟨applyMerge a b s, ?_, ?_, ?_⟩
  · rw [step_quiet hq, quietStep, unlessReserved_legal (by simp [hp]), sequencerStep, he]
    simp only [mergeStep, hs', hw, if_true]
  · simp [applyMerge, hm]
  · simp [applyMerge, hm]

theorem merging_255_completes : ∃ t, step (merging 255) = .next t ∧ t.treeValid = true ∧ t.phase = .idle :=
  lastMerge_completes (merging_inv (by decide)) rfl rfl rfl rfl

/-! ## Witnesses: for each statement with hypotheses, values that meet them all -/

theorem witness_DecodeOfEncodeGivesInstruction :
    (Instr.cmdRsvd 4#4).wf = true ∧ (Instr.wrRo 0xA00#12).wf = true ∧ (Instr.rdUnmapped 0x005#12).wf = true ∧
      (Instr.wrUnmapped 0xFFF#12).wf = true ∧ (Instr.rdFreq 256).wf = true := by decide

theorem witness_EncodeOfDecodeKeepsUsedBits :
    (weOf 0x130000000001#45 = true ∧ regionOf (addrOf 0x130000000001#45) = .freq) ∧
      weOf 0x1001ABCDEF02#45 = true ∧ regionOf (addrOf 0x1001ABCDEF02#45) = .ctrl := by decide

theorem witness_IgnoredDataBitsDoNotDecode :
    (0x11#32).extractLsb' 0 4 = (0x1#32).extractLsb' 0 4 ∧ readOnlyAddr 0x600#12 = true := by decide

theorem witness_WindowsFollowAddressMap :
    regionOf 0x300#12 = .freq ∧ regionOf 0x600#12 = .nodeLink ∧ regionOf 0xA00#12 = .nodeWeight ∧
      regionOf 0x301#12 = .unmapped ∧ regionOf 0x1FF#12 = .unmapped ∧ regionOf 0x601#12 = .unmapped ∧
      regionOf 0xA01#12 = .unmapped := by decide

theorem witness_StepRunsDecodedTransaction :
    (placeTransaction 0x100100000001#45 State.reset).phase ≠ .reserved ∧
      (placeTransaction 0x100100000001#45 State.reset).inputs = [.host 0x100100000001#45] := by
  exact ⟨by simp [State.reset], rfl⟩

theorem witness_StepServesOtherAgents (i : Input) (rest : List Input) :
    ({ started with inputs := i :: rest } : State).phase ≠ .reserved ∧ started.inputs = [] := by
  exact ⟨by simp [started], rfl⟩

theorem witness_ReservedPhaseFaultsUntilReset :
    ¬ ResetTurn { State.reset with phase := .reserved } ∧
      ResetTurn { State.reset with phase := .reserved, inputs := [.reset] } := by
  refine ⟨?_, ⟨[], rfl⟩⟩
  rintro ⟨rest, h⟩
  simp [State.reset] at h

theorem witness_ResetTransitionClearsState : ({ merging 7 with inputs := [.reset] } : State).inputs = .reset :: [] := rfl

theorem witness_ClockEdgeGivesItsTransaction :
    ({ rst := true, busReq := true, busAck := true, busWe := true, busAddr := 0x001#12, busWdata := 1#32 } : EdgeSample).rst
        = true ∧
      ({ rst := false, busReq := true, busAck := true, busWe := true, busAddr := 0x001#12, busWdata := 1#32 }
        : EdgeSample).rst = false := ⟨rfl, rfl⟩

theorem witness_CmdNopChangesNothing : (0xFFFFFFF0#32).extractLsb' 0 4 = 0#4 := by decide

theorem witness_idle_operations : State.reset.phase = .idle ∧ completed.phase = .idle := ⟨rfl, rfl⟩

theorem witness_CmdRsvdRaisesErrCmd :
    4 ≤ ((4#32).extractLsb' 0 4).toNat ∧ 4 ≤ ((0xFFFFFFFF#32).extractLsb' 0 4).toNat := by decide

theorem witness_BusyOperationsOnlyRaiseErrBusy :
    started.phase ≠ .idle ∧ clearingState.phase ≠ .idle := by
  constructor <;> simp [started, clearingState]

theorem witness_RdFreqReturnsStoredValue :
    withCount.freq[(65 : Sym)] = .written 1000#32 ∧ State.reset.freq[(256 : Sym)] = .unwritten := by
  constructor <;> decide +kernel

theorem witness_RdLinkReturnsNodeWord :
    oneLeaf.nodes[(5 : NodeId)].valid = true ∧ oneLeaf.nodes[(512 : NodeId)].valid = false := by
  constructor <;> decide +kernel

theorem witness_EveryTransactionCompletes : weOf 0x060000000000#45 = false ∧ weOf 0x100100000001#45 = true := by decide

theorem witness_MappedReadsChangeOnlyResponse :
    (Instr.rdLink 512).we = false ∧ (∀ a, Instr.rdLink 512 ≠ .rdUnmapped a) ∧
      exec (.rdLink 512) State.reset = .next (respond (link State.reset 512) State.reset) :=
  ⟨rfl, by simp, rfl⟩

theorem witness_TransactionFrame : exec .cmdClearerr started = .next (clearErrors started) := rfl

theorem witness_RaisingTransactionChangesOneFlag :
    exec (.cmdRsvd 9#4) started = .next (raiseOnWrite .cmd started) ∧ started.flag .cmd = false ∧
      (raiseOnWrite .cmd started).flag .cmd = true ∧
    exec (.rdUnmapped 0x005#12) started = .next (raiseOnRead .addr started) ∧ started.flag .addr = false ∧
      (raiseOnRead .addr started).flag .addr = true ∧
    exec .cmdBuild started = .next (raiseOnWrite .busy started) ∧ started.flag .busy = false ∧
      (raiseOnWrite .busy started).flag .busy = true :=
  ⟨rfl, rfl, rfl, rfl, rfl, rfl, rfl, rfl, rfl⟩

theorem witness_ClearStepZeroesFreq : clearingState.phase = .clearing := rfl

theorem threeLeaves_get (k : BitVec 9) (n : NodeId) :
    (threeLeaves k).nodes[n] = if n.val = 3 then leafNode true 3 1#32 else if n.val = 4 then leafNode true 4 1#32
      else if n.val = 7 then leafNode true 7 2#32 else Node.blank := by
  simp only [threeLeaves, Fin.getElem_fin, Vector.getElem_set, State.reset, Vector.getElem_replicate]
  by_cases h3 : n.val = 3
  · simp [h3]
  · by_cases h4 : n.val = 4
    · simp [h4]
    · by_cases h7 : n.val = 7
      · simp [h7]
      · simp [h3, h4, h7, Ne.symm h3, Ne.symm h4, Ne.symm h7]

theorem witness_MergeStepJoinsTwoLeast (k : BitVec 9) (hk : k.toNat < 256) :
    (threeLeaves k).phase = .building ∧ (threeLeaves k).initDone = true ∧ (threeLeaves k).merges.toNat < 256 ∧
      NextPair (threeLeaves k) 3 4 ∧
      (threeLeaves k).nodes[(3 : NodeId)].weight.toNat + (threeLeaves k).nodes[(4 : NodeId)].weight.toNat ≤ 2 ^ 32 - 1 := by
  have hq : ∀ n : NodeId, InQueue (threeLeaves k) n → n.val = 3 ∨ n.val = 4 ∨ n.val = 7 := by
    intro n hn
    rw [InQueue, threeLeaves_get] at hn
    by_contra hc
    push Not at hc
    simp [hc.1, hc.2.1, hc.2.2, Node.blank] at hn
  have hne : ∀ {m n : NodeId}, n ≠ m → n.val ≠ m.val := fun h e => h (Fin.ext e)
  refine ⟨rfl, rfl, hk, ⟨?_, ?_, by decide, ?_, ?_⟩, ?_⟩
  · rw [InQueue, threeLeaves_get]
    decide
  · rw [InQueue, threeLeaves_get]
    decide
  · intro n hn h3
    rw [KeyBefore, threeLeaves_get, threeLeaves_get]
    rcases hq n hn with h | h | h
    · exact absurd h (hne h3)
    · rw [h]
      decide
    · rw [h]
      decide
  · intro n hn h3 h4
    rw [KeyBefore, threeLeaves_get, threeLeaves_get]
    rcases hq n hn with h | h | h
    · exact absurd h (hne h3)
    · exact absurd h (hne h4)
    · rw [h]
      decide
  · rw [threeLeaves_get, threeLeaves_get]
    decide

theorem witness_MergeStep_first_and_last :
    (0#9).toNat < 255 ∧ (254#9).toNat < 255 ∧ (255#9).toNat = 255 := by decide

theorem witness_EnabledStepStaysEnabled :
    enabledStep started = some .init ∧ takeInput (.host 0x100100000001#45) started = .next (raiseOnWrite .busy started) ∧
      enabledStep clearingState = some .clear := ⟨rfl, rfl, rfl⟩

theorem witness_TwoFifoBuildEqualsLeastKeyBuild : allOnes.length = 257 := allOnes_length

theorem witness_StepKeepsInvariant : Inv (merging 255) ∧ ∃ t, step (merging 255) = .next t :=
  ⟨merging_inv (by decide), merging_255_completes.imp fun _ h => h.1⟩

theorem witness_QueueSizeFollowsMerges :
    Inv (merging 0) ∧ (merging 0).phase = .building ∧ (merging 0).initDone = true ∧ Inv (merging 255) ∧
      Inv completed ∧ completed.treeValid = true ∧ Inv started ∧ started.treeValid = false ∧ started.initDone = false :=
  ⟨merging_inv (by decide), rfl, rfl, merging_inv (by decide), completed_inv, rfl, started_inv _, rfl, rfl⟩

theorem witness_BuildEndsAfter257Steps :
    Inv emptyInput ∧ emptyInput.inputs = [] ∧ Inv tooLarge ∧ tooLarge.inputs = [] :=
  ⟨started_inv _, rfl, started_inv _, rfl⟩

theorem witness_CompletedBuildIsPureBuildOfTable :
    Inv (merging 255) ∧ (merging 255).phase = .building ∧ NoRestart (merging 255).inputs ∧
      ∃ t, runFor 1 (merging 255) = .next t ∧ t.treeValid = true := by
  refine ⟨merging_inv (by decide), rfl, by intro i hi; simp [merging, started, State.reset] at hi, ?_⟩
  obtain ⟨t, ht, hv, -⟩ := merging_255_completes
  exact ⟨t, runFor_one ht, hv⟩

theorem witness_BuildDependsOnTableAlone :
    buildTable (merging 255) = buildTable { merging 255 with inputs := [.sequencer] } ∧
      Inv { merging 255 with errBusy := true } := by
  refine ⟨rfl, ?_⟩
  obtain ⟨⟨a1, a2, a3, a4, a5, a6, a7⟩, ⟨b1, b2, b3, b4⟩⟩ := merging_inv (k := 255) (by decide)
  exact ⟨⟨a1, a2, a3, a4, a5, a6, a7⟩, ⟨b1, b2, b3, b4⟩⟩

theorem witness_PhaseChangesOnlyAsListed :
    ∃ t, step (placeTransaction 0x100100000001#45 State.reset) = .next t ∧
      (placeTransaction 0x100100000001#45 State.reset).phase ≠ t.phase :=
  ⟨_, rfl, by decide⟩

theorem witness_TreeValidChangesOnlyAsListed :
    (∃ t, step (merging 255) = .next t ∧ (merging 255).treeValid = false ∧ t.treeValid = true) ∧
      ∃ t, step (placeTransaction 0x100100000001#45 completed) = .next t ∧ completed.treeValid = true ∧
        t.treeValid = false := by
  obtain ⟨t, ht, hv, -⟩ := merging_255_completes
  exact ⟨⟨t, ht, rfl, hv⟩, ⟨_, rfl, rfl, rfl⟩⟩

theorem witness_FreqChangesOnlyAsListed :
    ((after (placeTransaction 0x124100000007#45 withCount)).map fun t => freqValue t 65) = some 7#32 ∧
      freqValue withCount 65 = 1000#32 ∧
      ((after { withCount with phase := .clearing }).map fun t => freqValue t 65) = some 0#32 := by
  decide +kernel

theorem witness_NodeStoreChangesOnlyAsListed :
    (after (placeTransaction 0x100100000001#45 idleValid)).map State.merges = some 0#9 ∧ idleValid.merges ≠ 0#9 := by
  decide +kernel

theorem witness_InvalidEntriesAreUnobservable :
    SameButInvalid State.reset
      { State.reset with nodes := State.reset.nodes.set 9 { Node.blank with weight := 5#32 } } := by
  refine ⟨fun n => ?_, rfl⟩
  simp only [State.reset, Fin.getElem_fin, Vector.getElem_set, Vector.getElem_replicate]
  split <;> rfl

theorem witness_ValidTreeStaysReadable :
    ControlInv completed ∧ completed.treeValid = true ∧ WalkAllowed .sequencer ∧ WalkAllowed (.consumer 512#10) ∧
      WalkAllowed (.host 0x100100000002#45) ∧ step completed = .next completed := by
  refine ⟨completed_inv.control, rfl, ⟨by simp, by simp⟩, ⟨by simp, by simp⟩, ⟨by simp, ?_⟩, rfl⟩
  rintro t ht
  obtain rfl : 0x100100000002#45 = t := by simpa using ht
  decide

theorem witness_TreePortReadsNodeStore :
    (512#10).toNat = (512 : NodeId).val ∧ 513 ≤ (513#10).toNat ∧ 513 ≤ (1023#10).toNat := by decide

theorem witness_completed_tree : Inv completed ∧ completed.treeValid = true := ⟨completed_inv, rfl⟩

theorem witness_MergesGoUpInWeight :
    Inv completed ∧ 257 ≤ (257 : NodeId).val ∧ (257 : NodeId).val < (512 : NodeId).val := ⟨completed_inv, by decide⟩

/-! ## Host programs and ports -/

theorem test_setf_word : (Pseudo.setf 256 1#32).expand 0 = [0x130000000001#45] := by decide
theorem test_poll_word : Pseudo.poll.expand 1 = [0x000200000000#45, 0x000200000000#45] := by decide
theorem test_poll_ends : pollEnds 0x44#32 = true ∧ pollEnds 0x42#32 = false := by decide
theorem test_port_above_512 : portLink oneLeaf 513#10 = 0#32 ∧ portLink oneLeaf 5#10 = 0xE0500000#32 := by decide +kernel
theorem test_node_word_internal :
    decodeNodeWord 0xA00401FF#32 1#32 = some (.internal 1 511 256) := by decide
theorem test_reset_goes_ahead :
    edgeInputs { rst := true, busReq := true, busAck := true, busWe := false, busAddr := 0#12, busWdata := 0#32 } = [.reset] := by
  decide

/-! ## INIT (the slowest checks come last) -/

/-- L2.5: INIT queues the EOF leaf and leaves the internal nodes invalid. -/
theorem test_init_links :
    ((after emptyInput).map fun t => (link t 256, link t 257)) = some (0xF0000000#32, 0#32) := by decide +kernel

/-- L2.5: INIT aborts with ERR_OVF and leaves its leaves valid and unqueued. -/
theorem test_init_abort :
    ((after tooLarge).map fun t => (statusWord t, link t 256, t.errOvf)) = some (0x10#32, 0xD0000000#32, true) := by
  decide +kernel

theorem emptyInput_total : (freqList emptyInput).sum = 1 := by decide +kernel
theorem tooLarge_total : (freqList tooLarge).sum = 2 ^ 32 := by decide +kernel

theorem witness_InitStepQueuesLeavesOrAborts :
    emptyInput.phase = .building ∧ emptyInput.initDone = false ∧ (freqList emptyInput).sum ≤ 2 ^ 32 - 1 ∧
      tooLarge.phase = .building ∧ tooLarge.initDone = false ∧ (freqList tooLarge).sum > 2 ^ 32 - 1 := by
  rw [emptyInput_total, tooLarge_total]
  exact ⟨rfl, rfl, by decide, rfl, rfl, by decide⟩

/-- One step that sets each flag, and one that clears a flag. -/
theorem witness_ErrorFlagsAreSticky :
    (after tooLarge).map State.errOvf = some true ∧
      (after (placeTransaction 0x100100000009#45 started)).map State.errCmd = some true ∧
      (after (placeTransaction 0x100100000001#45 started)).map State.errBusy = some true ∧
      (after (placeTransaction 0x000500000000#45 started)).map State.errAddr = some true ∧
      (after (placeTransaction 0x100100000003#45 { started with errCmd := true })).map State.errCmd = some false := by
  refine ⟨?_, by decide +kernel⟩
  obtain ⟨t, ht, h⟩ := Option.map_eq_some_iff.mp test_init_abort
  rw [ht, Option.map_some, (Prod.mk.inj (Prod.mk.inj h).2).2]

end Sys2Proof.Tests
end

section
/-! How one step serves the move that heads the list (00_scope.md R6 and R11, 20_memory.md R60): an equation of `step` per
agent at a legal phase, and the obligations of 00_scope.md assembled from them. -/

namespace Sys2Proof.Machine

variable {s : State} {rest : List Input}

/-- The first move of the list is the one that a step takes, whatever the phase. -/
theorem step_of_inputs_cons {i : Input} (hi : s.inputs = i :: rest) : step s = takeInput i { s with inputs := rest } := by
  unfold step
  rw [hi]

theorem step_of_host (hp : s.phase ≠ .reserved) {t : Transaction} (hi : s.inputs = .host t :: rest) :
    step s = exec (decode t) { s with inputs := rest } := by
  rw [step_of_inputs_cons hi]
  exact unlessReserved_legal hp

theorem step_of_sequencer (hp : s.phase ≠ .reserved) (hi : s.inputs = .sequencer :: rest) :
    step s = sequencerStep { s with inputs := rest } := by
  rw [step_of_inputs_cons hi]
  exact unlessReserved_legal hp

theorem step_of_consumer (hp : s.phase ≠ .reserved) {idx : NodePtr} (hi : s.inputs = .consumer idx :: rest) :
    step s = .next (consumerStep idx { s with inputs := rest }) := by
  rw [step_of_inputs_cons hi]
  exact unlessReserved_legal hp

/-- Reset is served in every phase (70_reset_and_hazards.md R230). -/
theorem step_of_reset (hi : s.inputs = .reset :: rest) : step s = .next (takeReset { s with inputs := rest }) :=
  step_of_inputs_cons hi

theorem step_of_inputs_nil (hp : s.phase ≠ .reserved) (hi : s.inputs = []) : step s = sequencerStep s := by
  unfold step
  rw [hi]
  exact unlessReserved_legal hp

/-- Placing a fetched word and taking it off again gives the state back, so the word runs on the state itself. -/
theorem step_withFetchWord (hp : s.phase ≠ .reserved) (nbits w : Nat) :
    step (s.withFetchWord nbits w) = exec (decode (BitVec.ofNat 45 (w % 2 ^ nbits))) s :=
  step_of_host (s := s.withFetchWord nbits w) (rest := s.inputs) hp rfl

end Sys2Proof.Machine
end

section
namespace Sys2Proof
open Machine

/-- Settles O8: the host's case of a step, and the same case for a word placed by `withFetchWord`. -/
theorem stepRunsDecodedTransaction : Obligations.StepRunsDecodedTransaction :=
  ⟨fun _ _ _ hp hi => step_of_host hp hi, fun _ nbits w hp => step_withFetchWord hp nbits w⟩

/-- Settles O9: one case of a step for each of the other agents, and the case of no move left. -/
theorem stepServesOtherAgents : Obligations.StepServesOtherAgents := by
  intro s rest hp
  refine ⟨?sequencer, ?consumer, ?reset, ?noMoveLeft⟩
  case sequencer => exact step_of_sequencer hp
  case consumer => exact fun _ hi => step_of_consumer hp hi
  case reset => exact step_of_reset
  case noMoveLeft => exact step_of_inputs_nil hp

end Sys2Proof
end

section
/-! What one step does to each part of the state, whichever agent it serves: to the control registers (10_state.md R22,
R23, R28), to the error flags (R29) and to FREQ (R24). One relation per part names the ways in which a step can touch it,
and the obligations about that part are case splits over the relation. -/

namespace Sys2Proof.Machine

/-! ### The agent a step serves -/

/-- A completed step by the agent it serves; `rest` are the moves it leaves. -/
inductive Served (s t : State) : Prop
  | sequencer (rest : List Input) (turn : SequencerTurn s) (run : sequencerStep { s with inputs := rest } = .next t)
  | host (rest : List Input) (i : Instr) (turn : HostTurn s i) (run : exec i { s with inputs := rest } = .next t)
  | consumer (rest : List Input) (idx : NodePtr) (run : t = consumerStep idx { s with inputs := rest })
  | reset (rest : List Input) (turn : ResetTurn s) (run : t = takeReset { s with inputs := rest })

/-- The sequencer's two ways to get the turn, its own move and no move left (70_reset_and_hazards.md R245), are one
case. -/
theorem step_served {s t : State} (h : step s = .next t) : Served s t := by
  rcases step_cases h with ⟨-, hi, hr⟩ | ⟨-, rest, hi, hr⟩ | ⟨-, w, rest, hi, hr⟩ | ⟨-, idx, rest, hi, hr⟩ |
    ⟨rest, hi, hr⟩
  · exact .sequencer [] (.inl hi) (by rw [← hi]; exact hr)
  · exact .sequencer rest (.inr ⟨rest, hi⟩) hr
  · exact .host rest (decode w) ⟨w, rest, hi, rfl⟩ hr
  · exact .consumer rest idx hr
  · exact .reset rest ⟨rest, hi⟩ hr

/-! ### The control registers -/

/-- `STATE`, `INIT_DONE`, `MERGES` and `TREE_VALID`: what `ControlInv` speaks of. -/
structure Control where
  phase : Phase
  initDone : Bool
  merges : BitVec 9
  treeValid : Bool

/-- The control registers of a state. -/
def State.control (s : State) : Control := ⟨s.phase, s.initDone, s.merges, s.treeValid⟩

theorem State.control_eq_iff {s : State} {c : Control} : s.control = c ↔
    s.phase = c.phase ∧ s.initDone = c.initDone ∧ s.merges = c.merges ∧ s.treeValid = c.treeValid := by
  cases c
  simp [State.control]

@[simp] theorem State.control_phase (s : State) : s.control.phase = s.phase := rfl
@[simp] theorem State.control_initDone (s : State) : s.control.initDone = s.initDone := rfl
@[simp] theorem State.control_merges (s : State) : s.control.merges = s.merges := rfl
@[simp] theorem State.control_treeValid (s : State) : s.control.treeValid = s.treeValid := rfl

/-- The ways in which a step can set the control registers (10_state.md R22, R28). -/
inductive ControlStep (s t : State) : Prop
  | stay (regs : t.control = s.control)
  | build (turn : HostTurn s .cmdBuild) (idle : s.phase = .idle) (regs : t.control = ⟨.building, false, 0#9, false⟩)
  | startClear (turn : HostTurn s .cmdClearf) (idle : s.phase = .idle)
      (regs : t.control = { s.control with phase := .clearing })
  | clear (turn : SequencerTurn s) (clearing : s.phase = .clearing) (regs : t.control = { s.control with phase := .idle })
  | abort (turn : SequencerTurn s) (building : s.phase = .building) (before : s.initDone = false)
      (total : Config.MAX_TOTAL < (freqList s).sum) (regs : t.control = { s.control with phase := .idle })
  | init (building : s.phase = .building) (before : s.initDone = false)
      (regs : t.control = { s.control with initDone := true })
  | merge (building : s.phase = .building) (after : s.initDone = true) (more : s.merges.toNat < 255)
      (regs : t.control = { s.control with merges := s.merges + 1#9 })
  | lastMerge (turn : SequencerTurn s) (building : s.phase = .building) (after : s.initDone = true)
      (last : s.merges.toNat = 255) (regs : t.control = ⟨.idle, false, 256#9, true⟩)
  | reset (turn : ResetTurn s) (regs : t.control = ⟨.idle, false, 0#9, false⟩)

/-- Of the host's operations only an accepted BUILD and an accepted CLEAR_FREQ touch the control registers. -/
theorem exec_control {i : Instr} {s t : State} (h : exec i s = .next t) :
    t.control = s.control ∨
    (i = .cmdBuild ∧ s.phase = .idle ∧ t.control = ⟨.building, false, 0#9, false⟩) ∨
    (i = .cmdClearf ∧ s.phase = .idle ∧ t.control = { s.control with phase := .clearing }) := by
  rcases exec_cases h with ⟨-, -, v, rfl⟩ | ⟨-, rfl⟩ | ⟨hi, hp, rfl⟩ | ⟨hi, hp, rfl⟩ | ⟨j, v, -, -, rfl⟩ |
    ⟨-, -, rfl⟩ | ⟨-, rfl⟩ | ⟨c, -, rfl⟩ | ⟨a, -, rfl⟩ | ⟨a, -, rfl⟩
  · exact .inl rfl
  · exact .inl rfl
  · exact .inr (.inl ⟨hi, hp, rfl⟩)
  · exact .inr (.inr ⟨hi, hp, rfl⟩)
  all_goals exact .inl rfl

/-- A merge counts itself, and the last one completes the build (41_tree_build.md R147, R148). -/
theorem applyMerge_control (a b : Key) (s : State) : (applyMerge a b s).control =
    if s.merges.toNat + 1 = 256 then ⟨.idle, false, s.merges + 1#9, true⟩
    else { s.control with merges := s.merges + 1#9 } := by
  unfold applyMerge
  split <;> rfl

theorem merges_add_one_of_last {m : BitVec 9} (h : m.toNat = 255) : m + 1#9 = 256#9 := by
  bv_omega

theorem sequencerStep_control {s t : State} (turn : SequencerTurn s) {rest : List Input}
    (h : sequencerStep { s with inputs := rest } = .next t) : ControlStep s t := by
  have hf : freqList { s with inputs := rest } = freqList s := freqList_congr rfl rfl
  rcases sequencerStep_cases h with ⟨-, rfl⟩ | ⟨hp, rfl⟩ | ⟨hp, hd, ht, rfl⟩ | ⟨hp, hd, -, rfl⟩ |
    ⟨hp, hd, hm, a, b, -, -, rfl⟩
  · exact .stay rfl
  · exact .clear turn hp rfl
  · exact .abort turn hp hd (hf ▸ ht) rfl
  · exact .init hp hd rfl
  · have hc := applyMerge_control a b { s with inputs := rest }
    by_cases hl : s.merges.toNat + 1 = 256
    · have hl' : s.merges.toNat = 255 := by omega
      exact .lastMerge turn hp hd hl' (by rw [hc, if_pos hl, merges_add_one_of_last hl'])
    · have hl' : s.merges.toNat < 255 := by
        have : s.merges.toNat < 256 := hm
        omega
      exact .merge hp hd hl' (by rw [hc, if_neg hl]; rfl)

theorem step_control {s t : State} (h : step s = .next t) : ControlStep s t := by
  cases step_served h with
  | sequencer rest turn run => exact sequencerStep_control turn run
  | host rest i turn run =>
    rcases exec_control run with regs | ⟨rfl, hp, regs⟩ | ⟨rfl, hp, regs⟩
    · exact .stay regs
    · exact .build turn hp regs
    · exact .startClear turn hp regs
  | consumer rest idx run => exact .stay (run ▸ rfl)
  | reset rest turn run => exact .reset turn (run ▸ rfl)

/-- The control invariant in terms of the values of the control registers. -/
theorem controlInv_iff {s : State} {c : Control} (h : s.control = c) : ControlInv s ↔
    c.phase ≠ .reserved ∧ (c.initDone = true → c.phase = .building) ∧
    (c.phase = .building → c.initDone = false → c.merges = 0#9) ∧ (c.initDone = true → c.merges.toNat < 256) ∧
    c.merges.toNat ≤ 256 ∧ (c.treeValid = true ↔ c.merges.toNat = 256) ∧ (c.treeValid = true → c.phase ≠ .building) := by
  subst h
  exact ⟨fun ⟨h1, h2, h3, h4, h5, h6, h7⟩ => ⟨h1, h2, h3, h4, h5, h6, h7⟩,
    fun ⟨h1, h2, h3, h4, h5, h6, h7⟩ => ⟨h1, h2, h3, h4, h5, h6, h7⟩⟩

/-- The control invariant is kept: nothing leads to encoding 3, and `MERGES` reaches 256 with the end of the build. -/
theorem ControlStep.keeps_controlInv {s t : State} (h : ControlStep s t) (hI : ControlInv s) : ControlInv t := by
  obtain ⟨hLegal, hDone, hFirst, hNext, hBound, hValid, hRests⟩ := hI
  cases h with
  | stay regs => exact (controlInv_iff regs).mpr ⟨hLegal, hDone, hFirst, hNext, hBound, hValid, hRests⟩
  | build _ _ regs => simp [controlInv_iff regs]
  | startClear _ idle regs => simp_all [controlInv_iff regs]
  | clear _ clearing regs => simp_all [controlInv_iff regs]
  | abort _ building before _ regs => simp_all [controlInv_iff regs]
  | init building before regs => simp_all [controlInv_iff regs]
  | merge building after more regs =>
    have hm : (s.merges + 1#9).toNat = s.merges.toNat + 1 := by bv_omega
    have hv : s.treeValid = false := by simp_all
    refine (controlInv_iff regs).mpr ⟨hLegal, hDone, ?_, ?_, ?_, ?_, hRests⟩ <;> simp only [hm]
    · simp [after]
    · omega
    · omega
    · simp [hv]
      omega
  | lastMerge _ _ _ _ regs => simp [controlInv_iff regs]
  | reset _ regs => simp [controlInv_iff regs]

/-- A change of `STATE` (10_state.md R22). -/
theorem ControlStep.phase_change {s t : State} (h : ControlStep s t) (hne : s.phase ≠ t.phase) :
    (s.phase = .idle ∧ t.phase = .building ∧ HostTurn s .cmdBuild) ∨
    (s.phase = .idle ∧ t.phase = .clearing ∧ HostTurn s .cmdClearf) ∨
    (s.phase = .clearing ∧ t.phase = .idle ∧ SequencerTurn s) ∨
    (s.phase = .building ∧ t.phase = .idle ∧ SequencerTurn s ∧
      ((s.initDone = false ∧ (freqList s).sum > 2 ^ 32 - 1) ∨ (s.initDone = true ∧ s.merges.toNat = 255))) ∨
    (t.phase = .idle ∧ ResetTurn s) := by
  cases h with
  | stay regs => exact absurd (congrArg Control.phase regs).symm hne
  | build turn idle regs => exact .inl ⟨idle, congrArg Control.phase regs, turn⟩
  | startClear turn idle regs => exact .inr (.inl ⟨idle, congrArg Control.phase regs, turn⟩)
  | clear turn clearing regs => exact .inr (.inr (.inl ⟨clearing, congrArg Control.phase regs, turn⟩))
  | abort turn building before total regs =>
    exact .inr (.inr (.inr (.inl ⟨building, congrArg Control.phase regs, turn, .inl ⟨before, total⟩⟩)))
  | init building before regs => exact absurd (congrArg Control.phase regs).symm hne
  | merge building after more regs => exact absurd (congrArg Control.phase regs).symm hne
  | lastMerge turn building after last regs =>
    exact .inr (.inr (.inr (.inl ⟨building, congrArg Control.phase regs, turn, .inr ⟨after, last⟩⟩)))
  | reset turn regs => exact .inr (.inr (.inr (.inr ⟨congrArg Control.phase regs, turn⟩)))

/-- A change of `TREE_VALID` (10_state.md R28). -/
theorem ControlStep.treeValid_change {s t : State} (h : ControlStep s t) (hne : s.treeValid ≠ t.treeValid) :
    (t.treeValid = true ∧ SequencerTurn s ∧ s.phase = .building ∧ s.initDone = true ∧ s.merges.toNat = 255) ∨
    (t.treeValid = false ∧ ((HostTurn s .cmdBuild ∧ s.phase = .idle) ∨ ResetTurn s)) := by
  cases h with
  | build turn idle regs => exact .inr ⟨congrArg Control.treeValid regs, .inl ⟨turn, idle⟩⟩
  | lastMerge turn building after last regs =>
    exact .inl ⟨congrArg Control.treeValid regs, turn, building, after, last⟩
  | reset turn regs => exact .inr ⟨congrArg Control.treeValid regs, .inr turn⟩
  | stay regs | startClear _ _ regs | clear _ _ regs | abort _ _ _ _ regs | init _ _ regs | merge _ _ _ regs =>
    exact absurd (congrArg Control.treeValid regs).symm hne

/-! ### The error flags -/

/-- What can set an error flag (60_exceptions.md R202). -/
def SetsFlag (s : State) : ErrorFlag → Prop
  | .ovf => SequencerTurn s ∧ s.phase = .building ∧ s.initDone = false ∧ Config.MAX_TOTAL < (freqList s).sum
  | .cmd => ∃ c, HostTurn s (.cmdRsvd c)
  | .busy => s.phase ≠ .idle ∧ (HostTurn s .cmdBuild ∨ HostTurn s .cmdClearf ∨ ∃ i v, HostTurn s (.wrFreq i v))
  | .addr => ∃ a, HostTurn s (.rdUnmapped a) ∨ HostTurn s (.wrRo a) ∨ HostTurn s (.wrUnmapped a)

/-- The ways in which a step can set the error flags (10_state.md R29). -/
inductive FlagStep (s t : State) : Prop
  | stay (flags : t.flag = s.flag)
  | raise (e : ErrorFlag) (cause : SetsFlag s e) (flags : t.flag = (s.setFlag e).flag)
  | clearErr (turn : HostTurn s .cmdClearerr) (flags : t.flag = s.clearFlags.flag)
  | build (turn : HostTurn s .cmdBuild) (idle : s.phase = .idle) (flags : t.flag = (startBuild s).flag)
  | reset (turn : ResetTurn s) (flags : t.flag = s.clearFlags.flag)

/-- Two states with the same four flags have the same flag function. -/
theorem State.flag_ext {s t : State} (ho : t.errOvf = s.errOvf) (hc : t.errCmd = s.errCmd) (hb : t.errBusy = s.errBusy)
    (ha : t.errAddr = s.errAddr) : t.flag = s.flag := by
  funext e
  cases e
  · exact ho
  · exact hc
  · exact hb
  · exact ha

@[simp] theorem clearFlags_flag (e : ErrorFlag) (s : State) : s.clearFlags.flag e = false := by cases e <;> rfl

/-- An accepted BUILD clears ERR_OVF and leaves the other flags (40_host_operations.md R104). -/
theorem startBuild_flag (e : ErrorFlag) (s : State) : (startBuild s).flag e = (s.flag e && decide (e ≠ .ovf)) := by
  cases e <;> simp

/-- A merge leaves the flags (41_tree_build.md R147, R148). -/
theorem applyMerge_flag (a b : Key) (s : State) : (applyMerge a b s).flag = s.flag := by
  unfold applyMerge
  apply State.flag_ext <;> split <;> rfl

theorem exec_flags {i : Instr} {s t : State} {rest : List Input} (turn : HostTurn s i)
    (h : exec i { s with inputs := rest } = .next t) : FlagStep s t := by
  rcases exec_cases h with ⟨-, -, v, rfl⟩ | ⟨-, rfl⟩ | ⟨rfl, hp, rfl⟩ | ⟨-, -, rfl⟩ | ⟨j, v, -, -, rfl⟩ |
    ⟨hi, hp, rfl⟩ | ⟨rfl, rfl⟩ | ⟨c, rfl, rfl⟩ | ⟨a, rfl, rfl⟩ | ⟨a, hi, rfl⟩
  · exact .stay (State.flag_ext rfl rfl rfl rfl)
  · exact .stay (State.flag_ext rfl rfl rfl rfl)
  · exact .build turn hp (State.flag_ext rfl rfl rfl rfl)
  · exact .stay (State.flag_ext rfl rfl rfl rfl)
  · exact .stay (State.flag_ext rfl rfl rfl rfl)
  · refine .raise .busy ⟨hp, ?_⟩ (State.flag_ext rfl rfl rfl rfl)
    rcases hi with rfl | rfl | ⟨j, v, rfl⟩
    · exact .inl turn
    · exact .inr (.inl turn)
    · exact .inr (.inr ⟨j, v, turn⟩)
  · exact .clearErr turn (State.flag_ext rfl rfl rfl rfl)
  · exact .raise .cmd ⟨c, turn⟩ (State.flag_ext rfl rfl rfl rfl)
  · exact .raise .addr ⟨a, .inl turn⟩ (State.flag_ext rfl rfl rfl rfl)
  · refine .raise .addr ⟨a, .inr ?_⟩ (State.flag_ext rfl rfl rfl rfl)
    rcases hi with rfl | rfl
    · exact .inl turn
    · exact .inr turn

theorem sequencerStep_flags {s t : State} (turn : SequencerTurn s) {rest : List Input}
    (h : sequencerStep { s with inputs := rest } = .next t) : FlagStep s t := by
  have hf : freqList { s with inputs := rest } = freqList s := freqList_congr rfl rfl
  rcases sequencerStep_cases h with ⟨-, rfl⟩ | ⟨-, rfl⟩ | ⟨hp, hd, ht, rfl⟩ | ⟨-, -, -, rfl⟩ | ⟨-, -, -, a, b, -, -, rfl⟩
  · exact .stay (State.flag_ext rfl rfl rfl rfl)
  · exact .stay (State.flag_ext rfl rfl rfl rfl)
  · exact .raise .ovf ⟨turn, hp, hd, hf ▸ ht⟩ (State.flag_ext rfl rfl rfl rfl)
  · exact .stay (State.flag_ext rfl rfl rfl rfl)
  · exact .stay ((applyMerge_flag a b _).trans (State.flag_ext rfl rfl rfl rfl))

theorem step_flags {s t : State} (h : step s = .next t) : FlagStep s t := by
  cases step_served h with
  | sequencer rest turn run => exact sequencerStep_flags turn run
  | host rest i turn run => exact exec_flags turn run
  | consumer rest idx run => exact .stay (by rw [run]; exact State.flag_ext rfl rfl rfl rfl)
  | reset rest turn run => exact .reset turn (by rw [run]; exact State.flag_ext rfl rfl rfl rfl)

/-- A flag that a step sets has its cause (60_exceptions.md R202). -/
theorem FlagStep.cause {s t : State} (h : FlagStep s t) {e : ErrorFlag} (h0 : s.flag e = false) (h1 : t.flag e = true) :
    SetsFlag s e := by
  cases h with
  | stay flags => simp [flags, h0] at h1
  | raise e' cause flags =>
    rw [flags, setFlag_flag, h0] at h1
    obtain rfl : e = e' := by simpa using h1
    exact cause
  | clearErr _ flags => simp [flags] at h1
  | build _ _ flags => simp [flags, startBuild_flag, h0] at h1
  | reset _ flags => simp [flags] at h1

/-- What can clear a flag (10_state.md R29). -/
theorem FlagStep.cleared {s t : State} (h : FlagStep s t) {e : ErrorFlag} (h1 : s.flag e = true) (h0 : t.flag e = false) :
    HostTurn s .cmdClearerr ∨ ResetTurn s ∨ (e = .ovf ∧ HostTurn s .cmdBuild ∧ s.phase = .idle) := by
  cases h with
  | stay flags => simp [flags, h1] at h0
  | raise e' cause flags => simp [flags, h1] at h0
  | clearErr turn _ => exact .inl turn
  | build turn idle flags =>
    have he : e = .ovf := by simpa [flags, startBuild_flag, h1] using h0
    exact .inr (.inr ⟨he, turn, idle⟩)
  | reset turn _ => exact .inr (.inl turn)

/-! ### FREQ -/

/-- Of the host's operations only an accepted FREQ write touches FREQ (40_host_operations.md R110). -/
theorem exec_freq {i : Instr} {s t : State} (h : exec i s = .next t) :
    (t.freq = s.freq ∧ t.resets = s.resets) ∨
    ∃ j v, i = .wrFreq j v ∧ s.phase = .idle ∧ t = acknowledge (writeFreq j v s) := by
  rcases exec_cases h with ⟨-, -, v, rfl⟩ | ⟨-, rfl⟩ | ⟨-, -, rfl⟩ | ⟨-, -, rfl⟩ | hw | ⟨-, -, rfl⟩ | ⟨-, rfl⟩ |
    ⟨c, -, rfl⟩ | ⟨a, -, rfl⟩ | ⟨a, -, rfl⟩
  · exact .inl ⟨rfl, rfl⟩
  · exact .inl ⟨rfl, rfl⟩
  · exact .inl ⟨rfl, rfl⟩
  · exact .inl ⟨rfl, rfl⟩
  · exact .inr hw
  all_goals exact .inl ⟨rfl, rfl⟩

/-- A merge leaves FREQ (41_tree_build.md R147, R148). -/
theorem applyMerge_freq (a b : Key) (s : State) :
    (applyMerge a b s).freq = s.freq ∧ (applyMerge a b s).resets = s.resets := by
  unfold applyMerge
  split <;> exact ⟨rfl, rfl⟩

/-- Of the sequencer's steps only CLEAR touches FREQ (41_tree_build.md R141). -/
theorem sequencerStep_freq {s t : State} (h : sequencerStep s = .next t) :
    (t.freq = s.freq ∧ t.resets = s.resets) ∨ (s.phase = .clearing ∧ t = clearStep s) := by
  rcases sequencerStep_cases h with ⟨-, rfl⟩ | hc | ⟨-, -, -, rfl⟩ | ⟨-, -, -, rfl⟩ | ⟨-, -, -, a, b, -, -, rfl⟩
  · exact .inl ⟨rfl, rfl⟩
  · exact .inr hc
  · exact .inl ⟨rfl, rfl⟩
  · exact .inl ⟨rfl, rfl⟩
  · exact .inl (applyMerge_freq a b s)

theorem freqValue_acknowledge (s : State) (i : Sym) : freqValue (acknowledge s) i = freqValue s i :=
  freqValue_congr rfl rfl i

/-- A change of what an entry of FREQ reads as (10_state.md R24). -/
theorem step_freqValue_change {s t : State} (h : step s = .next t) {i : Sym} (hne : freqValue t i ≠ freqValue s i) :
    (s.phase = .idle ∧ ∃ v, HostTurn s (.wrFreq i v) ∧ freqValue t i = v) ∨
    (s.phase = .clearing ∧ SequencerTurn s ∧ freqValue t i = 0#32) ∨ ResetTurn s := by
  cases step_served h with
  | sequencer rest turn run =>
    rcases sequencerStep_freq run with ⟨hf, hr⟩ | ⟨hp, rfl⟩
    · exact absurd (freqValue_congr hf hr i) hne
    · exact .inr (.inl ⟨hp, turn, freqValue_clearStep _ i⟩)
  | host rest op turn run =>
    rcases exec_freq run with ⟨hf, hr⟩ | ⟨j, v, rfl, hp, rfl⟩
    · exact absurd (freqValue_congr hf hr i) hne
    · rw [freqValue_acknowledge, freqValue_writeFreq] at hne ⊢
      by_cases hij : i = j
      · subst hij
        exact .inl ⟨hp, v, turn, if_pos rfl⟩
      · rw [if_neg hij] at hne
        exact absurd (freqValue_congr rfl rfl i) hne
  | consumer rest idx run => exact absurd (freqValue_congr (by rw [run]; rfl) (by rw [run]; rfl) i) hne
  | reset rest turn run => exact .inr (.inr turn)

end Sys2Proof.Machine
end

section
namespace Sys2Proof
open Machine

/-- Settles O39: by the cases in which a step sets the control registers. -/
theorem stepKeepsControlInvariant : Obligations.StepKeepsControlInvariant :=
  fun _ _ hI h => (step_control h).keeps_controlInv hI

/-- Settles O46: by the same cases, of which six change `STATE`. -/
theorem phaseChangesOnlyAsListed : Obligations.PhaseChangesOnlyAsListed :=
  fun _ _ h hne => (step_control h).phase_change hne

/-- Settles O47: by the same cases, of which three can change `TREE_VALID`. -/
theorem treeValidChangesOnlyAsListed : Obligations.TreeValidChangesOnlyAsListed := by
  intro s t h
  constructor
  · intro h0 h1
    rcases (step_control h).treeValid_change (by simp [h0, h1]) with ⟨-, hset⟩ | ⟨hc, -⟩
    · exact hset
    · simp [h1] at hc
  · intro h1 h0
    rcases (step_control h).treeValid_change (by simp [h0, h1]) with ⟨hs, -⟩ | ⟨-, hclear⟩
    · simp [h0] at hs
    · exact hclear

/-- Settles O48: by the cases in which a step sets the error flags, each flag with its cause. -/
theorem errorFlagsAreSticky : Obligations.ErrorFlagsAreSticky := by
  intro s t h
  have hf := step_flags h
  refine ⟨fun e => hf.cleared, ?ovf, ?cmd, ?busy, ?addr⟩
  case ovf => exact hf.cause (e := .ovf)
  case cmd => exact hf.cause (e := .cmd)
  case busy => exact hf.cause (e := .busy)
  case addr => exact hf.cause (e := .addr)

/-- Settles O49: an accepted FREQ write, the CLEAR step and reset are the only operations that touch FREQ. -/
theorem freqChangesOnlyAsListed : Obligations.FreqChangesOnlyAsListed :=
  fun _ _ _ h hne => step_freqValue_change h hne

end Sys2Proof
end

section
/-! The encoding 3 of `STATE`, and the state after reset. -/

namespace Sys2Proof.Machine

theorem unlessReserved_reserved {s : State} (h : s.phase = .reserved) (r : Result) :
    unlessReserved s r = .fault .phaseEncodingThree := if_pos h

/-- While `STATE` holds the encoding 3 every move but reset faults (93_implementation_defined.md U9). -/
theorem step_of_reserved {s : State} (hp : s.phase = .reserved) (hr : ¬ ResetTurn s) :
    step s = .fault .phaseEncodingThree := by
  cases hi : s.inputs with
  | nil =>
    unfold step
    rw [hi]
    exact unlessReserved_reserved hp _
  | cons i rest =>
    rw [step_of_inputs_cons hi]
    cases i with
    | host t => exact unlessReserved_reserved hp _
    | sequencer => exact unlessReserved_reserved hp _
    | consumer idx => exact unlessReserved_reserved hp _
    | reset => exact absurd ⟨rest, hi⟩ hr

theorem reset_nodes_get (n : NodeId) : State.reset.nodes[n] = Node.blank := Vector.getElem_replicate _

theorem reset_freq_get (i : Sym) : State.reset.freq[i] = .unwritten := Vector.getElem_replicate _

theorem reset_flag (e : ErrorFlag) : State.reset.flag e = false := by cases e <;> rfl

theorem paramWord_eq : paramWord = 0x02080501#32 := by decide

theorem viewNode_reset (n : NodeId) : viewNode State.reset.nodes[n] = none := congrArg viewNode (reset_nodes_get n)

theorem reset_controlInv : ControlInv State.reset :=
  (controlInv_iff (c := ⟨.idle, false, 0#9, false⟩) rfl).mpr (by simp)

/-- At reset the control registers rule out three of the store invariant's four clauses, and no entry is valid. -/
theorem reset_storeInv : StoreInv State.reset where
  beforeInit _ _ := viewNode_reset
  duringMerges _ hd := absurd hd (by decide)
  whenValid hv := absurd hv (by decide)
  withoutTree _ _ n := .inl (viewNode_reset n)

end Sys2Proof.Machine
end

section
namespace Sys2Proof
open Machine

/-- Settles O10: the step checks the phase before every move but reset. -/
theorem reservedPhaseFaultsUntilReset : Obligations.ReservedPhaseFaultsUntilReset := by
  intro s hp
  refine ⟨step_of_reserved hp, ?_⟩
  rintro ⟨rest, hi⟩
  exact ⟨_, step_of_reset hi, rfl⟩

/-- Settles O11: the registers by definition, and the two register files by the law of a replicated entry. -/
theorem resetStateHoldsStatedValues : Obligations.ResetStateHoldsStatedValues := by
  refine ⟨rfl, rfl, rfl, rfl, reset_flag, fun n => ?nodes, reset_freq_get, ?param⟩
  case nodes =>
    rw [reset_nodes_get]
    exact ⟨rfl, rfl⟩
  case param =>
    rw [← paramWord_eq]
    rfl

/-- Settles O38: the control part and the store part. -/
theorem resetStateMeetsInvariant : Obligations.ResetStateMeetsInvariant := ⟨reset_controlInv, reset_storeInv⟩

end Sys2Proof
end

section
/-! The priority structure Q by node id (10_state.md R27): it is a list without repetitions that depends on the views of
the entries alone, and under the invariant it is Q of the pure build. -/

namespace Sys2Proof.Machine

/-- Q lists the queued keys by node id. -/
theorem queueOf_eq_filterMap (nodes : Vector Node 513) :
    queueOf nodes = (List.finRange 513).filterMap fun n => queuedKey nodes[n] n.val := by
  have hz : nodes.toList.zipIdx = (List.finRange 513).map fun n => (nodes[n], n.val) := by
    apply List.ext_getElem
    · simp
    · intro i h1 h2
      simp
  rw [queueOf, hz, List.filterMap_map]
  rfl

theorem queuedKey_id {e : Node} {n : Nat} {x : Key} (h : queuedKey e n = some x) : x.id = n := by
  unfold queuedKey at h
  split at h
  · obtain rfl := Option.some.inj h
    rfl
  · cases h

/-- No key is twice in Q, since a key holds its node's id. -/
theorem queueOf_nodup (nodes : Vector Node 513) : (queueOf nodes).Nodup := by
  rw [queueOf_eq_filterMap]
  refine (List.nodup_finRange 513).filterMap fun m n x hm hn => Fin.ext ?_
  exact (queuedKey_id hm).symm.trans (queuedKey_id hn)

/-- Q is empty when no entry shows itself as queued. -/
theorem queueOf_eq_nil {nodes : Vector Node 513}
    (h : ∀ (n : NodeId) (v : NodeView), viewNode nodes[n] = some v → v.queued = false) :
    queueOf nodes = [] := by
  refine List.eq_nil_iff_forall_not_mem.mpr fun x hx => ?_
  obtain ⟨n, -, hv, hq⟩ := mem_queueOf.mp hx
  exact absurd hq (Bool.eq_false_iff.mp (h n _ (if_pos hv)))

/-- An entry outside any tree does not show itself as queued. -/
theorem IdleEntry.not_queued {n : NodeId} {e : Node} {v : NodeView} (h : IdleEntry n e) (hv : viewNode e = some v) :
    v.queued = false := by
  rcases h with h | ⟨-, h⟩
  · simp [h] at hv
  · obtain rfl := Option.some.inj (h.symm.trans hv)
    rfl

/-- Q of the store is Q of the pure build, up to order. -/
theorem queueOf_perm {nodes : Vector Node 513} {k : Nat} (hk : k ≤ 256) (h : StoreIsBuild nodes k) :
    (queueOf nodes).Perm (Forest.after (leafWeights nodes) k).queue := by
  have hF := (forestInv_after (leafWeights_length nodes) k hk).1
  exact (List.perm_ext_iff_of_nodup (queueOf_nodup nodes) hF.idsDistinct.of_map).mpr (mem_queueOf_iff hk h)

/-- A build of `k` merges has 257 - k nodes in Q (10_state.md R27). -/
theorem queueOf_length {nodes : Vector Node 513} {k : Nat} (hk : k ≤ 256) (h : StoreIsBuild nodes k) :
    (queueOf nodes).length = 257 - k := by
  obtain ⟨hF, hm⟩ := forestInv_after (leafWeights_length nodes) k hk
  have := (queueOf_perm hk h).length_eq
  have := hF.size
  omega

/-- The node that the last of `k + 1` merges made is in Q. -/
theorem newest_mem_queue {f : List Nat} (hf : f.length = 257) {k : Nat} (hk : k < 256) :
    257 + k ∈ (Forest.after f (k + 1)).queue.map Key.id := by
  obtain ⟨hF, hm⟩ := forestInv_after hf k (Nat.le_of_lt hk)
  have hl : 2 ≤ (Forest.after f k).queue.length := by
    have := hF.size
    omega
  obtain ⟨a, b, hs⟩ := selectPair_exists hF.idsDistinct hl
  simp [Forest.after, Forest.merge_eq hs, hm]

/-- A completed build leaves the root alone in Q (41_tree_build.md R148). -/
theorem queueOf_completed {nodes : Vector Node 513} (h : StoreIsBuild nodes 256) : (queueOf nodes).map Key.id = [512] := by
  have hp := (queueOf_perm (Nat.le_refl 256) h).map Key.id
  have hroot := hp.mem_iff.mpr (newest_mem_queue (leafWeights_length nodes) (k := 255) (by decide))
  have hlen : ((queueOf nodes).map Key.id).length = 1 := by
    rw [List.length_map, queueOf_length (Nat.le_refl 256) h]
  obtain ⟨i, hi⟩ := List.length_eq_one_iff.mp hlen
  rw [hi, List.mem_singleton] at hroot
  rw [hi, ← hroot]

end Sys2Proof.Machine
end

section
namespace Sys2Proof
open Machine

/-- Settles O42: while there is a build or a tree, Q is that of the pure build; else no entry is queued. -/
theorem queueSizeFollowsMerges : Obligations.QueueSizeFollowsMerges := by
  intro s hI
  refine ⟨?merging, ?completed, ?atRest⟩
  case merging =>
    intro hp hd
    exact queueOf_length hI.control.mergesBound (hI.store.duringMerges hp hd)
  case completed => exact fun hv => queueOf_completed (hI.store.whenValid hv)
  case atRest =>
    intro hv hrest
    apply queueOf_eq_nil
    intro n v hn
    by_cases hp : s.phase = .building
    · have hd : s.initDone = false := hrest.resolve_left (not_not_intro hp)
      exact absurd ((hI.store.beforeInit hp hd n).symm.trans hn) (by simp)
    · exact (hI.store.withoutTree hp hv n).not_queued hn

end Sys2Proof
end

section
/-! Noninterference of invalid entries (10_state.md R26): every operation reads the node store only through the views of
its entries, so it takes states that agree but in invalid entries to states that agree so again. -/

namespace Sys2Proof.Machine

/-! ### Node stores with the same views -/

theorem queuedKey_eq_of_view (e : Node) (n : Nat) :
    queuedKey e n = (viewNode e).bind fun v => if v.queued then some { weight := v.weight, id := n } else none := by
  unfold queuedKey viewNode
  cases e.valid <;> simp

theorem viewNode_dequeue (e : Node) : viewNode (dequeue e) = (viewNode e).map fun v => { v with queued := false } := by
  unfold viewNode dequeue
  cases e.valid <;> simp

/-- Two node stores whose entries show the same. -/
def SameViews (nodes nodes' : Vector Node 513) : Prop := ∀ n : NodeId, viewNode nodes[n] = viewNode nodes'[n]

/-- An invalidated store shows nothing. -/
theorem sameViews_invalidateStore (nodes nodes' : Vector Node 513) :
    SameViews (invalidateStore nodes) (invalidateStore nodes') := by
  intro n
  rw [invalidateStore_get, invalidateStore_get, viewNode_invalidateNode, viewNode_invalidateNode]

section
variable {nodes nodes' : Vector Node 513} (h : SameViews nodes nodes')
include h

/-- What depends on an entry's view alone is the same all over both stores. -/
theorem SameViews.map_eq {α : Type} {g : Node → α} (hg : ∀ e e', viewNode e = viewNode e' → g e = g e') :
    nodes.toList.map g = nodes'.toList.map g := by
  apply List.ext_getElem
  · simp
  · intro i h1 h2
    have hi : i < 513 := by simpa using h1
    simpa using hg _ _ (h ⟨i, hi⟩)

theorem SameViews.queueOf_eq : queueOf nodes = queueOf nodes' := by
  rw [queueOf_eq_filterMap, queueOf_eq_filterMap]
  refine List.filterMap_congr fun n _ => ?_
  rw [queuedKey_eq_of_view, queuedKey_eq_of_view, h n]

theorem SameViews.mergeNodes (k : Nat) (a b : Key) : SameViews (mergeNodes k a b nodes) (mergeNodes k a b nodes') := by
  intro n
  rw [mergeNodes_get, mergeNodes_get]
  split
  · rfl
  · split
    · rw [viewNode_dequeue, viewNode_dequeue, h n]
    · exact h n

end

/-! ### Operations on states that agree but in invalid entries -/

theorem SameButInvalid.nodes {s t : State} (h : SameButInvalid s t) : SameViews s.nodes t.nodes := h.1

/-- Such a pair is one state with two node stores of the same views. -/
theorem sameButInvalid_iff {s t : State} :
    SameButInvalid s t ↔ ∃ nodes, SameViews s.nodes nodes ∧ t = { s with nodes := nodes } := by
  constructor
  · exact fun ⟨hv, ht⟩ => ⟨t.nodes, hv, ht.symm⟩
  · rintro ⟨nodes, hv, rfl⟩
    exact ⟨hv, rfl⟩

/-- FREQ and the reset count agree. -/
theorem SameButInvalid.freq_eq {s t : State} (h : SameButInvalid s t) : t.freq = s.freq ∧ t.resets = s.resets := by
  obtain ⟨nodes, -, rfl⟩ := sameButInvalid_iff.mp h
  exact ⟨rfl, rfl⟩

section
variable {s t : State} (h : SameButInvalid s t)
include h

/-- An operation that neither reads nor writes the node store keeps the agreement. -/
theorem SameButInvalid.map (g : State → State)
    (hg : ∀ (u : State) (nodes : Vector Node 513), g { u with nodes := nodes } = { g u with nodes := nodes }) :
    SameButInvalid (g s) (g t) := by
  obtain ⟨nodes, hv, rfl⟩ := sameButInvalid_iff.mp h
  have hn : (g s).nodes = s.nodes := by simpa using congrArg State.nodes (hg s s.nodes)
  exact sameButInvalid_iff.mpr ⟨nodes, by rwa [hn], hg s nodes⟩

theorem SameButInvalid.phase_eq : s.phase = t.phase := by
  obtain ⟨nodes, -, rfl⟩ := sameButInvalid_iff.mp h
  rfl

theorem SameButInvalid.inputs_eq : s.inputs = t.inputs := by
  obtain ⟨nodes, -, rfl⟩ := sameButInvalid_iff.mp h
  rfl

theorem SameButInvalid.statusWord_eq : statusWord s = statusWord t := by
  obtain ⟨nodes, -, rfl⟩ := sameButInvalid_iff.mp h
  rfl

theorem SameButInvalid.link_eq (n : NodeId) : link s n = link t n := (nodeWords_of_view (h.nodes n)).1

theorem SameButInvalid.weight_eq (n : NodeId) : weight s n = weight t n := (nodeWords_of_view (h.nodes n)).2

theorem SameButInvalid.port_eq (idx : NodePtr) : portLink s idx = portLink t idx ∧ portWeight s idx = portWeight t idx := by
  unfold portLink portWeight
  cases portNode idx with
  | none => exact ⟨rfl, rfl⟩
  | some n => exact ⟨h.link_eq n, h.weight_eq n⟩

theorem SameButInvalid.observe_eq : observe s = observe t := by
  have hl := h.nodes.map_eq fun e e' hv => (nodeWords_of_view hv).1
  have hw := h.nodes.map_eq fun e e' hv => (nodeWords_of_view hv).2
  obtain ⟨nodes, -, rfl⟩ := sameButInvalid_iff.mp h
  simp only [observe, hl, hw]
  rfl

theorem SameButInvalid.respond {v w : Word} (hw : v = w) : SameButInvalid (respond v s) (respond w t) := by
  subst hw
  exact h.map (Machine.respond v) fun _ _ => rfl

theorem SameButInvalid.acknowledge : SameButInvalid (acknowledge s) (acknowledge t) := h.map _ fun _ _ => rfl

theorem SameButInvalid.setFlag (e : ErrorFlag) : SameButInvalid (s.setFlag e) (t.setFlag e) :=
  h.map (State.setFlag · e) fun _ _ => by cases e <;> rfl

/-- The busy check passes or fails alike. -/
theorem SameButInvalid.whenIdle {g : State → State} (hg : SameButInvalid (g s) (g t)) :
    SameButInvalid (whenIdle g s) (whenIdle g t) := by
  unfold Machine.whenIdle
  rw [h.phase_eq]
  split
  · exact hg.acknowledge
  · exact (h.setFlag .busy).acknowledge

theorem SameButInvalid.startBuild : SameButInvalid (startBuild s) (startBuild t) := by
  obtain ⟨nodes, -, rfl⟩ := sameButInvalid_iff.mp h
  exact ⟨sameViews_invalidateStore _ _, rfl⟩

theorem SameButInvalid.takeReset : SameButInvalid (takeReset s) (takeReset t) := by
  obtain ⟨nodes, -, rfl⟩ := sameButInvalid_iff.mp h
  exact ⟨sameViews_invalidateStore _ _, rfl⟩

theorem SameButInvalid.consumerStep (idx : NodePtr) : SameButInvalid (consumerStep idx s) (consumerStep idx t) := by
  unfold Machine.consumerStep
  rw [(h.port_eq idx).1, (h.port_eq idx).2]
  exact h.map (fun u => { u with portOut := some ⟨portLink t idx, portWeight t idx⟩ }) fun _ _ => rfl

theorem SameButInvalid.exec (i : Instr) : SameOutcome (exec i s) (exec i t) := by
  cases i with
  | rdParam => exact h.respond rfl
  | rdCtrl => exact h.respond rfl
  | cmdNop => exact h.acknowledge
  | cmdBuild => exact h.whenIdle h.startBuild
  | cmdClearf => exact h.whenIdle (h.map startClear fun _ _ => rfl)
  | cmdClearerr => exact h.map clearErrors fun _ _ => rfl
  | cmdRsvd code => exact (h.setFlag .cmd).acknowledge
  | rdStatus => exact h.respond h.statusWord_eq
  | rdRoot => exact h.respond (congrArg Observation.root h.observe_eq)
  | rdMerges => exact h.respond (congrArg Observation.merges h.observe_eq)
  | wrFreq j v => exact h.whenIdle (h.map (writeFreq j v) fun _ _ => rfl)
  | rdFreq j => exact h.respond (freqValue_congr h.freq_eq.1 h.freq_eq.2 j).symm
  | rdLink n => exact h.respond (h.link_eq n)
  | rdWeight n => exact h.respond (h.weight_eq n)
  | wrRo a => exact (h.setFlag .addr).acknowledge
  | rdUnmapped a => exact (h.setFlag .addr).respond rfl
  | wrUnmapped a => exact (h.setFlag .addr).acknowledge

theorem SameButInvalid.writeLeaves (queued : Bool) : SameViews (writeLeaves queued s) (writeLeaves queued t) := by
  intro n
  rw [writeLeaves_get, writeLeaves_get]
  split
  · rw [freqValue_congr h.freq_eq.1 h.freq_eq.2]
  · exact h.nodes n

theorem SameButInvalid.initStep : SameButInvalid (initStep s) (initStep t) := by
  have hf : freqTotal t = freqTotal s := by
    rw [freqTotal_eq, freqTotal_eq, freqList_congr h.freq_eq.1 h.freq_eq.2]
  have hl := h.writeLeaves
  unfold Machine.initStep
  rw [hf]
  obtain ⟨nodes, -, rfl⟩ := sameButInvalid_iff.mp h
  split
  · exact ⟨hl false, rfl⟩
  · exact ⟨hl true, rfl⟩

theorem SameButInvalid.applyMerge (a b : Key) : SameButInvalid (applyMerge a b s) (applyMerge a b t) := by
  obtain ⟨nodes, hv, rfl⟩ := sameButInvalid_iff.mp h
  unfold Machine.applyMerge
  dsimp only
  split
  · exact ⟨hv.mergeNodes _ a b, rfl⟩
  · exact ⟨hv.mergeNodes _ a b, rfl⟩

theorem SameButInvalid.mergeStep : SameOutcome (mergeStep s) (mergeStep t) := by
  unfold Machine.mergeStep
  rw [h.nodes.queueOf_eq]
  cases selectPair (queueOf t.nodes) with
  | none => exact rfl
  | some p =>
    obtain ⟨a, b⟩ := p
    dsimp only
    split
    · exact h.applyMerge a b
    · exact rfl

theorem SameButInvalid.enabledStep_eq : enabledStep s = enabledStep t := by
  obtain ⟨nodes, -, rfl⟩ := sameButInvalid_iff.mp h
  rfl

theorem SameButInvalid.sequencerStep : SameOutcome (sequencerStep s) (sequencerStep t) := by
  unfold Machine.sequencerStep
  rw [h.enabledStep_eq]
  cases enabledStep t with
  | none => exact h
  | some kind =>
    cases kind with
    | clear => exact h.map clearStep fun _ _ => rfl
    | init => exact h.initStep
    | merge => exact h.mergeStep

/-- The check for the encoding 3 passes or fails alike. -/
theorem SameButInvalid.unlessReserved {r r' : Result} (hr : SameOutcome r r') :
    SameOutcome (unlessReserved s r) (unlessReserved t r') := by
  unfold Machine.unlessReserved
  rw [h.phase_eq]
  split
  · exact rfl
  · exact hr

theorem SameButInvalid.takeInput (i : Input) : SameOutcome (takeInput i s) (takeInput i t) := by
  cases i with
  | host w => exact h.unlessReserved (h.exec (decode w))
  | sequencer => exact h.unlessReserved h.sequencerStep
  | consumer idx => exact h.unlessReserved (h.consumerStep idx)
  | reset => exact h.takeReset

theorem SameButInvalid.step : SameOutcome (step s) (step t) := by
  unfold Machine.step
  rw [h.inputs_eq]
  cases t.inputs with
  | nil => exact h.unlessReserved h.sequencerStep
  | cons i rest => exact (h.map (fun u => { u with inputs := rest }) fun _ _ => rfl).takeInput i

end

end Sys2Proof.Machine
end

section
namespace Sys2Proof
open Machine

/-- Settles O51: each operation keeps the agreement, and what agents observe are functions of the views. -/
theorem invalidEntriesAreUnobservable : Obligations.InvalidEntriesAreUnobservable :=
  fun _ _ h => ⟨h.observe_eq, h.port_eq, h.step⟩

end Sys2Proof
end

section
/-! The address map (20_memory.md R52, R53): the bit patterns of 30_encoding.md R72 as ranges of addresses, and the index
of an element of a window as the address less the window's base. -/

namespace Sys2Proof

/-- The addresses of a region, by 20_memory.md R52. -/
def Region.Contains : Region → Nat → Prop
  | .param, n => n = 0
  | .ctrl, n => n = 1
  | .status, n => n = 2
  | .root, n => n = 3
  | .merges, n => n = 4
  | .freq, n => 0x200 ≤ n ∧ n ≤ 0x300
  | .nodeLink, n => 0x400 ≤ n ∧ n ≤ 0x600
  | .nodeWeight, n => 0x800 ≤ n ∧ n ≤ 0xA00
  | .unmapped, n => (0x005 ≤ n ∧ n ≤ 0x1FF) ∨ (0x301 ≤ n ∧ n ≤ 0x3FF) ∨ (0x601 ≤ n ∧ n ≤ 0x7FF) ∨ 0xA01 ≤ n

/-- A window of 30_encoding.md R72 is the aligned block with the top bits `c` and, beyond it, the end address `e`. -/
theorem topBits_or_end_iff (a : Addr) {lo len : Nat} (hw : lo + len = 12) (c : BitVec len) {e : Addr}
    (he : e.toNat = (c.toNat + 1) * 2 ^ lo) :
    a.extractLsb' lo len = c ∨ a = e ↔ c.toNat * 2 ^ lo ≤ a.toNat ∧ a.toNat ≤ e.toNat := by
  have hlt : a.toNat / 2 ^ lo < 2 ^ len := by
    rw [Nat.div_lt_iff_lt_mul (Nat.two_pow_pos lo), ← Nat.pow_add, Nat.add_comm, hw]
    exact a.isLt
  have hblock : a.extractLsb' lo len = c ↔ c.toNat * 2 ^ lo ≤ a.toNat ∧ a.toNat < e.toNat := by
    rw [← BitVec.toNat_inj, BitVec.extractLsb'_toNat, Nat.shiftRight_eq_div_pow, Nat.mod_eq_of_lt hlt, he,
      ← Nat.le_div_iff_mul_le (Nat.two_pow_pos lo), ← Nat.div_lt_iff_lt_mul (Nat.two_pow_pos lo)]
    omega
  have hbase : c.toNat * 2 ^ lo ≤ e.toNat := he ▸ Nat.mul_le_mul_right _ (Nat.le_succ _)
  rw [hblock, ← BitVec.toNat_inj]
  omega

/-- The region by the number of the address: what the three bit patterns with their end addresses come to. -/
theorem regionOf_eq (a : Addr) : regionOf a =
    if a.toNat = 0 then .param
    else if a.toNat = 1 then .ctrl
    else if a.toNat = 2 then .status
    else if a.toNat = 3 then .root
    else if a.toNat = 4 then .merges
    else if 0x200 ≤ a.toNat ∧ a.toNat ≤ 0x300 then .freq
    else if 0x400 ≤ a.toNat ∧ a.toNat ≤ 0x600 then .nodeLink
    else if 0x800 ≤ a.toNat ∧ a.toNat ≤ 0xA00 then .nodeWeight
    else .unmapped := by
  have hfreq : a.extractLsb' 8 4 = 0b0010#4 ∨ a = 0x300#12 ↔ 0x200 ≤ a.toNat ∧ a.toNat ≤ 0x300 :=
    topBits_or_end_iff a rfl _ rfl
  have hlink : a.extractLsb' 9 3 = 0b010#3 ∨ a = 0x600#12 ↔ 0x400 ≤ a.toNat ∧ a.toNat ≤ 0x600 :=
    topBits_or_end_iff a rfl _ rfl
  have hweight : a.extractLsb' 9 3 = 0b100#3 ∨ a = 0xA00#12 ↔ 0x800 ≤ a.toNat ∧ a.toNat ≤ 0xA00 :=
    topBits_or_end_iff a rfl _ rfl
  simp only [regionOf, hfreq, hlink, hweight]
  simp only [← BitVec.toNat_inj, BitVec.toNat_ofNat]

/-- The regions are the ranges of 20_memory.md R52: an address lies in the range of its region and in no other. -/
theorem regionOf_eq_iff (a : Addr) (r : Region) : regionOf a = r ↔ r.Contains a.toNat := by
  rw [regionOf_eq]
  constructor
  · rintro rfl
    split_ifs <;> simp only [Region.Contains] <;> omega
  · intro h
    cases r <;> simp only [Region.Contains] at h <;> simp (disch := omega) only [if_pos, if_neg]

/-- Within a window of `n` elements the index is the address less the base (20_memory.md R53). -/
theorem windowIndex_val {n : Nat} [NeZero n] {a base : Addr} (hb : base.toNat ≤ a.toNat) (hn : a.toNat - base.toNat < n) :
    (Fin.ofNat n (a - base).toNat).val = a.toNat - base.toNat := by
  rw [Fin.val_ofNat, BitVec.toNat_sub_of_le hb, Nat.mod_eq_of_lt hn]

end Sys2Proof
end

section
/-! The node store and `MERGES` (10_state.md R23, R25): which step can change them, and what reads as before while they
stay. -/

namespace Sys2Proof.Machine

/-- A read of a mapped address sets the response, and that is all (20_memory.md R57). -/
theorem exec_mappedRead {i : Instr} {s t : State} (hread : i.we = false) (hmapped : ∀ a, i ≠ .rdUnmapped a)
    (h : exec i s = .next t) : ∃ v, t = respond v s := by
  cases i with
  | rdParam | rdCtrl | rdStatus | rdRoot | rdMerges | rdFreq _ | rdLink _ | rdWeight _ =>
    exact ⟨_, (Host.Outcome.next.inj h).symm⟩
  | rdUnmapped a => exact absurd rfl (hmapped a)
  | cmdNop | cmdBuild | cmdClearf | cmdClearerr | cmdRsvd _ | wrFreq _ _ | wrRo _ | wrUnmapped _ => cases hread

/-- The node words depend on the node store alone (10_state.md R35, R36). -/
theorem nodeWords_congr {s t : State} (h : t.nodes = s.nodes) (n : NodeId) : link t n = link s n ∧ weight t n = weight s n := by
  simp [link, weight, h]

/-- The node store and `MERGES` stay as they are. -/
def SameStore (s t : State) : Prop := t.nodes = s.nodes ∧ t.merges = s.merges

/-- Of the host's operations only an accepted BUILD touches the node store or `MERGES` (40_host_operations.md R104). -/
theorem exec_store {i : Instr} {s t : State} (h : exec i s = .next t) :
    SameStore s t ∨ (i = .cmdBuild ∧ s.phase = .idle) := by
  rcases exec_cases h with ⟨-, -, v, rfl⟩ | ⟨-, rfl⟩ | ⟨hi, hp, -⟩ | ⟨-, -, rfl⟩ | ⟨j, v, -, -, rfl⟩ | ⟨-, -, rfl⟩ |
    ⟨-, rfl⟩ | ⟨c, -, rfl⟩ | ⟨a, -, rfl⟩ | ⟨a, -, rfl⟩
  · exact .inl ⟨rfl, rfl⟩
  · exact .inl ⟨rfl, rfl⟩
  · exact .inr ⟨hi, hp⟩
  all_goals exact .inl ⟨rfl, rfl⟩

/-- The sequencer touches the node store or `MERGES` only in a build (41_tree_build.md R140). -/
theorem sequencerStep_store {s t : State} (h : sequencerStep s = .next t) : SameStore s t ∨ s.phase = .building := by
  rcases sequencerStep_cases h with ⟨-, rfl⟩ | ⟨-, rfl⟩ | ⟨hp, -⟩ | ⟨hp, -⟩ | ⟨hp, -⟩
  · exact .inl ⟨rfl, rfl⟩
  · exact .inl ⟨rfl, rfl⟩
  all_goals exact .inr hp

/-- What a step can do to the node store and `MERGES` (20_memory.md R50, 10_state.md R23). -/
theorem step_store {s t : State} (h : step s = .next t) :
    SameStore s t ∨ (s.phase = .building ∧ SequencerTurn s) ∨ (s.phase = .idle ∧ HostTurn s .cmdBuild) ∨ ResetTurn s := by
  cases step_served h with
  | sequencer rest turn run =>
    rcases sequencerStep_store run with hsame | hp
    · exact .inl hsame
    · exact .inr (.inl ⟨hp, turn⟩)
  | host rest i turn run =>
    rcases exec_store run with hsame | ⟨rfl, hp⟩
    · exact .inl hsame
    · exact .inr (.inr (.inl ⟨hp, turn⟩))
  | consumer rest idx run => exact .inl (run ▸ ⟨rfl, rfl⟩)
  | reset rest turn run => exact .inr (.inr (.inr turn))

/-! ### A valid tree while the host keeps to its duty (42_tree_output.md R182) -/

section
variable {s : State} (hw : ∀ i rest, s.inputs = i :: rest → WalkAllowed i)
include hw

theorem not_hostTurn_cmdBuild_of_walkAllowed : ¬ HostTurn s .cmdBuild :=
  fun ⟨t, rest, hi, hd⟩ => (hw _ rest hi).2 t rfl hd

theorem not_resetTurn_of_walkAllowed : ¬ ResetTurn s :=
  fun ⟨rest, hi⟩ => (hw _ rest hi).1 rfl

/-- No step of a walk touches a valid tree: the sequencer writes the store only in BUILDING, where no tree is valid. -/
theorem step_keeps_validTree {t : State} (hI : ControlInv s) (hv : s.treeValid = true) (h : step s = .next t) :
    t.treeValid = true ∧ t.nodes = s.nodes := by
  have hrests : s.phase ≠ .building := hI.treeValidRests hv
  have hbuild := not_hostTurn_cmdBuild_of_walkAllowed hw
  have hreset := not_resetTurn_of_walkAllowed hw
  constructor
  · by_contra hne
    rcases (step_control h).treeValid_change (hv ▸ Ne.symm hne) with ⟨hset, -⟩ | ⟨-, ⟨turn, -⟩ | turn⟩
    · exact hne hset
    · exact hbuild turn
    · exact hreset turn
  · rcases step_store h with ⟨hn, -⟩ | ⟨hp, -⟩ | ⟨-, turn⟩ | turn
    · exact hn
    · exact absurd hp hrests
    · exact absurd turn hbuild
    · exact absurd turn hreset

end

theorem treeRootSignal_of_valid {s : State} (h : s.treeValid = true) : treeRootSignal s = 512#10 := if_pos h

end Sys2Proof.Machine
end

section
namespace Sys2Proof
open Machine

/-- Settles O5: a region is its range of addresses, and each window's range bounds the difference to its base. -/
theorem windowsFollowAddressMap : Obligations.WindowsFollowAddressMap := by
  intro a
  have hregion := regionOf_eq_iff a
  refine ⟨hregion .freq, hregion .nodeLink, hregion .nodeWeight, hregion .param, hregion .ctrl, hregion .status,
    hregion .root, hregion .merges, hregion .unmapped, ?freq, ?link, ?weight⟩
  case freq =>
    intro h
    obtain ⟨hlo, hhi⟩ := (hregion .freq).mp h
    exact windowIndex_val hlo (Nat.lt_succ_of_le (Nat.sub_le_sub_right hhi 0x200))
  case link =>
    intro h
    obtain ⟨hlo, hhi⟩ := (hregion .nodeLink).mp h
    exact windowIndex_val hlo (Nat.lt_succ_of_le (Nat.sub_le_sub_right hhi 0x400))
  case weight =>
    intro h
    obtain ⟨hlo, hhi⟩ := (hregion .nodeWeight).mp h
    exact windowIndex_val hlo (Nat.lt_succ_of_le (Nat.sub_le_sub_right hhi 0x800))

/-- Settles O29: the response is the one field set, and neither FREQ nor the node words read it. -/
theorem mappedReadsChangeOnlyResponse : Obligations.MappedReadsChangeOnlyResponse := by
  intro i s t hread hmapped h
  obtain ⟨v, rfl⟩ := exec_mappedRead hread hmapped h
  exact ⟨rfl, freqValue_congr rfl rfl, nodeWords_congr rfl⟩

/-- Settles O50: of what a step can do to the node store and `MERGES`, all but the first case is on the list. -/
theorem nodeStoreChangesOnlyAsListed : Obligations.NodeStoreChangesOnlyAsListed := by
  intro s t h hne
  rcases step_store h with ⟨hn, hm⟩ | hlisted
  · exact (hne.elim (· hn) (· hm)).elim
  · exact hlisted

/-- Settles O52: the moves that could touch the tree are the two the host's duty rules out, or need BUILDING. -/
theorem validTreeStaysReadable : Obligations.ValidTreeStaysReadable := by
  intro s t hI hv hw h
  obtain ⟨hv', hn⟩ := step_keeps_validTree hw hI hv h
  exact ⟨hv', treeRootSignal_of_valid hv', nodeWords_congr hn⟩

end Sys2Proof
end

section
/-! The decoder on an assembled word, and the encoder as its inverse (30_encoding.md R70 to R78): which addresses each
arm of the decoder answers, and the address of an element of a window against the index that an address names. -/

namespace Sys2Proof

/-! ### Transaction words by their fields -/

theorem decode_of_read {t : Transaction} (h : weOf t = false) : decode t = decodeRead (addrOf t) := by
  simp [decode, h]

theorem decode_of_write {t : Transaction} (h : weOf t = true) : decode t = decodeWrite (addrOf t) (dataOf t) := by
  simp [decode, h]

theorem decode_assemble_read (a : Addr) (d : Word) : decode (assemble false a d) = decodeRead a := by
  rw [decode_of_read (weOf_assemble ..), addrOf_assemble]

theorem decode_assemble_write (a : Addr) (d : Word) : decode (assemble true a d) = decodeWrite a d := by
  rw [decode_of_write (weOf_assemble ..), addrOf_assemble, dataOf_assemble]

/-- A write to CTRL selects by CMD alone (30_encoding.md R74). -/
theorem decode_assemble_ctrl (d : Word) : decode (assemble true 0x001#12 d) = decodeCommand (cmdOf d) :=
  decode_assemble_write 0x001#12 d

theorem cmdOf_setWidth (c : BitVec 4) : cmdOf (c.setWidth 32) = c := by
  rw [cmdOf, BitVec.extractLsb'_setWidth_of_le (by decide), BitVec.extractLsb'_eq_self]

/-! ### Elements of a window and their addresses (20_memory.md R52, R53) -/

theorem windowAddr_toNat {n : Nat} {base : Addr} (hn : base.toNat + n ≤ 2 ^ 12) (i : Fin n) :
    (base + BitVec.ofNat 12 i.val).toNat = base.toNat + i.val := by
  have hi := i.isLt
  rw [BitVec.toNat_add, BitVec.toNat_ofNat, Nat.add_mod_mod, Nat.mod_eq_of_lt (by omega)]

/-- The index that the address of an element names is the element. -/
theorem windowIndex_windowAddr {n : Nat} [NeZero n] {base : Addr} (hn : base.toNat + n ≤ 2 ^ 12) (i : Fin n) :
    Fin.ofNat n (base + BitVec.ofNat 12 i.val - base).toNat = i := by
  have hi := i.isLt
  have ha := windowAddr_toNat hn i
  apply Fin.ext
  rw [windowIndex_val (by omega) (by omega), ha, Nat.add_sub_cancel_left]

/-- An address within a window is that of the element it names. -/
theorem windowAddr_windowIndex {n : Nat} [NeZero n] {a base : Addr} (hb : base.toNat ≤ a.toNat)
    (hn : a.toNat - base.toNat < n) : base + BitVec.ofNat 12 (Fin.ofNat n (a - base).toNat).val = a := by
  rw [windowIndex_val hb hn, ← BitVec.toNat_sub_of_le hb, BitVec.ofNat_toNat, BitVec.setWidth_eq, BitVec.add_comm,
    BitVec.sub_add_cancel]

theorem regionOf_freqAddr (i : Sym) : regionOf (freqAddr i) = .freq := by
  have ha : (freqAddr i).toNat = 0x200 + i.val := windowAddr_toNat (by decide) i
  exact (regionOf_eq_iff _ .freq).mpr ⟨by omega, by omega⟩

theorem regionOf_linkAddr (n : NodeId) : regionOf (linkAddr n) = .nodeLink := by
  have ha : (linkAddr n).toNat = 0x400 + n.val := windowAddr_toNat (by decide) n
  exact (regionOf_eq_iff _ .nodeLink).mpr ⟨by omega, by omega⟩

theorem regionOf_weightAddr (n : NodeId) : regionOf (weightAddr n) = .nodeWeight := by
  have ha : (weightAddr n).toNat = 0x800 + n.val := windowAddr_toNat (by decide) n
  exact (regionOf_eq_iff _ .nodeWeight).mpr ⟨by omega, by omega⟩

theorem freqIndex_freqAddr (i : Sym) : freqIndex (freqAddr i) = i := windowIndex_windowAddr (by decide) i

theorem linkIndex_linkAddr (n : NodeId) : linkIndex (linkAddr n) = n := windowIndex_windowAddr (by decide) n

theorem weightIndex_weightAddr (n : NodeId) : weightIndex (weightAddr n) = n := windowIndex_windowAddr (by decide) n

theorem freqAddr_freqIndex {a : Addr} (h : regionOf a = .freq) : freqAddr (freqIndex a) = a := by
  obtain ⟨hlo, hhi⟩ := (regionOf_eq_iff a .freq).mp h
  exact windowAddr_windowIndex hlo (Nat.lt_succ_of_le (Nat.sub_le_sub_right hhi 0x200))

theorem linkAddr_linkIndex {a : Addr} (h : regionOf a = .nodeLink) : linkAddr (linkIndex a) = a := by
  obtain ⟨hlo, hhi⟩ := (regionOf_eq_iff a .nodeLink).mp h
  exact windowAddr_windowIndex hlo (Nat.lt_succ_of_le (Nat.sub_le_sub_right hhi 0x400))

theorem weightAddr_weightIndex {a : Addr} (h : regionOf a = .nodeWeight) : weightAddr (weightIndex a) = a := by
  obtain ⟨hlo, hhi⟩ := (regionOf_eq_iff a .nodeWeight).mp h
  exact windowAddr_windowIndex hlo (Nat.lt_succ_of_le (Nat.sub_le_sub_right hhi 0x800))

/-! ### Well-formed addresses as regions -/

theorem unmappedAddr_iff (a : Addr) : unmappedAddr a = true ↔ regionOf a = .unmapped := by
  simp only [regionOf_eq_iff, Region.Contains, unmappedAddr, Bool.or_eq_true, Bool.and_eq_true, decide_eq_true_eq]
  omega

theorem readOnlyAddr_iff (a : Addr) :
    readOnlyAddr a = true ↔ regionOf a ≠ .ctrl ∧ regionOf a ≠ .freq ∧ regionOf a ≠ .unmapped := by
  simp only [ne_eq, regionOf_eq_iff, Region.Contains, readOnlyAddr, Bool.or_eq_true, Bool.and_eq_true,
    decide_eq_true_eq, beq_iff_eq]
  omega

/-! ### The arms of the decoder -/

theorem decodeWrite_of_readOnly {a : Addr} (h : readOnlyAddr a = true) (d : Word) : decodeWrite a d = .wrRo a := by
  obtain ⟨hctrl, hfreq, hunmapped⟩ := (readOnlyAddr_iff a).mp h
  unfold decodeWrite
  cases hr : regionOf a with
  | ctrl => exact absurd hr hctrl
  | freq => exact absurd hr hfreq
  | unmapped => exact absurd hr hunmapped
  | param | status | root | merges | nodeLink | nodeWeight => rfl

theorem decodeRead_freqAddr (i : Sym) : decodeRead (freqAddr i) = .rdFreq i := by
  simp only [decodeRead, regionOf_freqAddr, freqIndex_freqAddr]

theorem decodeWrite_freqAddr (i : Sym) (v : Word) : decodeWrite (freqAddr i) v = .wrFreq i v := by
  simp only [decodeWrite, regionOf_freqAddr, freqIndex_freqAddr]

theorem decodeRead_linkAddr (n : NodeId) : decodeRead (linkAddr n) = .rdLink n := by
  simp only [decodeRead, regionOf_linkAddr, linkIndex_linkAddr]

theorem decodeRead_weightAddr (n : NodeId) : decodeRead (weightAddr n) = .rdWeight n := by
  simp only [decodeRead, regionOf_weightAddr, weightIndex_weightAddr]

theorem decodeRead_of_unmapped {a : Addr} (h : unmappedAddr a = true) : decodeRead a = .rdUnmapped a := by
  simp only [decodeRead, (unmappedAddr_iff a).mp h]

theorem decodeWrite_of_unmapped {a : Addr} (h : unmappedAddr a = true) (d : Word) : decodeWrite a d = .wrUnmapped a := by
  simp only [decodeWrite, (unmappedAddr_iff a).mp h]

theorem decodeCommand_of_reserved {c : BitVec 4} (h : reservedCode c = true) : decodeCommand c = .cmdRsvd c := by
  revert c
  decide

/-- Decoding inverts the encoder (30_encoding.md R73, R75): a case per operation, by the arm that its address selects. -/
theorem decode_encode {i : Instr} (h : i.wf = true) : decode (encode i) = i := by
  cases i with
  | rdParam | rdCtrl | rdStatus | rdRoot | rdMerges | cmdNop | cmdBuild | cmdClearf | cmdClearerr => rfl
  | cmdRsvd code =>
    calc decode (encode (.cmdRsvd code))
      _ = decodeCommand (cmdOf (code.setWidth 32)) := decode_assemble_ctrl _
      _ = .cmdRsvd code := by rw [cmdOf_setWidth, decodeCommand_of_reserved h]
  | wrFreq i v => exact (decode_assemble_write ..).trans (decodeWrite_freqAddr i v)
  | rdFreq i => exact (decode_assemble_read ..).trans (decodeRead_freqAddr i)
  | rdLink n => exact (decode_assemble_read ..).trans (decodeRead_linkAddr n)
  | rdWeight n => exact (decode_assemble_read ..).trans (decodeRead_weightAddr n)
  | wrRo a => exact (decode_assemble_write ..).trans (decodeWrite_of_readOnly h _)
  | rdUnmapped a => exact (decode_assemble_read ..).trans (decodeRead_of_unmapped h)
  | wrUnmapped a => exact (decode_assemble_write ..).trans (decodeWrite_of_unmapped h _)

/-! ### The operation that a word selects, by the fields of the word (30_encoding.md R73) -/

theorem decodeCommand_fields (c : BitVec 4) : (decodeCommand c).wf = true ∧ (decodeCommand c).we = true ∧
    (decodeCommand c).address = 0x001#12 ∧ (decodeCommand c).data = c.setWidth 32 := by
  revert c
  decide

/-- A read selects a well-formed operation of the same address, which reads. -/
theorem decodeRead_fields (a : Addr) :
    (decodeRead a).wf = true ∧ (decodeRead a).we = false ∧ (decodeRead a).address = a := by
  unfold decodeRead
  cases hr : regionOf a with
  | param | ctrl | status | root | merges =>
    exact ⟨rfl, rfl, BitVec.eq_of_toNat_eq (Eq.symm ((regionOf_eq_iff a _).mp hr))⟩
  | freq => exact ⟨rfl, rfl, freqAddr_freqIndex hr⟩
  | nodeLink => exact ⟨rfl, rfl, linkAddr_linkIndex hr⟩
  | nodeWeight => exact ⟨rfl, rfl, weightAddr_weightIndex hr⟩
  | unmapped => exact ⟨(unmappedAddr_iff a).mpr hr, rfl, rfl⟩

/-- A write selects a well-formed operation of the same address, which writes. -/
theorem decodeWrite_fields (a : Addr) (d : Word) :
    (decodeWrite a d).wf = true ∧ (decodeWrite a d).we = true ∧ (decodeWrite a d).address = a := by
  unfold decodeWrite
  cases hr : regionOf a with
  | ctrl =>
    obtain ⟨hwf, hwe, haddr, -⟩ := decodeCommand_fields (cmdOf d)
    exact ⟨hwf, hwe, haddr.trans (BitVec.eq_of_toNat_eq (Eq.symm ((regionOf_eq_iff a _).mp hr)))⟩
  | freq => exact ⟨rfl, rfl, freqAddr_freqIndex hr⟩
  | unmapped => exact ⟨(unmappedAddr_iff a).mpr hr, rfl, rfl⟩
  | param | status | root | merges | nodeLink | nodeWeight =>
    exact ⟨(readOnlyAddr_iff a).mpr (by simp [hr]), rfl, rfl⟩

/-- The DATA bits of a write that are not ignored (30_encoding.md R78): all of them in the FREQ window, CMD at CTRL. -/
theorem decodeWrite_data (a : Addr) (d : Word) : (regionOf a = .freq → (decodeWrite a d).data = d) ∧
    (regionOf a = .ctrl → cmdOf (decodeWrite a d).data = cmdOf d) := by
  unfold decodeWrite
  constructor
  · intro hr
    rw [hr]
    rfl
  · intro hr
    obtain ⟨-, -, -, hdata⟩ := decodeCommand_fields (cmdOf d)
    rw [hr]
    exact (congrArg cmdOf hdata).trans (cmdOf_setWidth _)

end Sys2Proof
end

section
/-! The opcode table (30_encoding.md R81) against the decoder. What a row compares is taken apart into WE, ADDR and DATA;
what the rows themselves say (which address blocks they name, that no two of priority 0 overlap) is evaluated on the
table, and the rest holds of every word. -/

namespace Sys2Proof

/-! ### Masked comparison, field by field -/

theorem transaction_ext {t u : Transaction} (hwe : weOf t = weOf u) (haddr : addrOf t = addrOf u)
    (hdata : dataOf t = dataOf u) : t = u := by
  apply BitVec.eq_of_getLsbD_eq
  intro i hi
  obtain hlow | ⟨hlow, hmid⟩ | rfl : i < 32 ∨ (32 ≤ i ∧ i < 44) ∨ i = 44 := by omega
  · have h := congrArg (·.getLsbD i) hdata
    simpa [dataOf, hlow] using h
  · have h := congrArg (·.getLsbD (i - 32)) haddr
    simpa [addrOf, show i - 32 < 12 by omega, Nat.add_sub_cancel' hlow] using h
  · exact hwe

/-- A row compares the three fields of a word one by one. -/
theorem OpcodeRow.selects_iff (r : OpcodeRow) (t : Transaction) : r.selects t = true ↔
    (weOf t && weOf r.mask) = weOf r.pattern ∧ addrOf t &&& addrOf r.mask = addrOf r.pattern ∧
      dataOf t &&& dataOf r.mask = dataOf r.pattern := by
  have hwe : weOf (t &&& r.mask) = (weOf t && weOf r.mask) := BitVec.getLsbD_and
  have haddr : addrOf (t &&& r.mask) = addrOf t &&& addrOf r.mask := BitVec.extractLsb'_and
  have hdata : dataOf (t &&& r.mask) = dataOf t &&& dataOf r.mask := BitVec.extractLsb'_and
  rw [OpcodeRow.selects, beq_iff_eq, ← hwe, ← haddr, ← hdata]
  constructor
  · intro h
    exact ⟨congrArg weOf h, congrArg addrOf h, congrArg dataOf h⟩
  · rintro ⟨h, h', h''⟩
    exact transaction_ext h h' h''

/-- Comparing under a mask of the top bits compares those bits. -/
theorem and_topMask_eq_iff {len lo : Nat} (a : BitVec (len + lo)) (c : BitVec len) :
    a &&& (BitVec.allOnes len ++ 0#lo) = c ++ 0#lo ↔ a.extractLsb' lo len = c := by
  have hsplit : a.extractLsb' lo len ++ a.extractLsb' 0 lo = a :=
    (BitVec.extractLsb'_append_extractLsb'_eq_extractLsb' (Nat.zero_add lo).symm).trans BitVec.extractLsb'_eq_self
  conv_lhs => arg 1; arg 1; rw [← hsplit]
  rw [BitVec.and_append, BitVec.and_allOnes, BitVec.and_zero, BitVec.append_left_inj]

/-! ### The regions as masked address blocks (30_encoding.md R72) -/

/-- The words that agree with `base` in the bits of `mask`. -/
structure Block (w : Nat) where
  mask : BitVec w
  base : BitVec w
deriving DecidableEq

def Block.Contains {w : Nat} (b : Block w) (x : BitVec w) : Prop := x &&& b.mask = b.base

/-- The address blocks of a region; the unmapped addresses are what the blocks leave. -/
def Region.blocks : Region → List (Block 12)
  | .param => [⟨0xFFF#12, 0x000#12⟩]
  | .ctrl => [⟨0xFFF#12, 0x001#12⟩]
  | .status => [⟨0xFFF#12, 0x002#12⟩]
  | .root => [⟨0xFFF#12, 0x003#12⟩]
  | .merges => [⟨0xFFF#12, 0x004#12⟩]
  | .freq => [⟨0xF00#12, 0x200#12⟩, ⟨0xFFF#12, 0x300#12⟩]
  | .nodeLink => [⟨0xE00#12, 0x400#12⟩, ⟨0xFFF#12, 0x600#12⟩]
  | .nodeWeight => [⟨0xE00#12, 0x800#12⟩, ⟨0xFFF#12, 0xA00#12⟩]
  | .unmapped => []

/-- A mapped region is its blocks. -/
theorem regionOf_eq_iff_block (a : Addr) {r : Region} (hr : r ≠ .unmapped) :
    regionOf a = r ↔ ∃ b ∈ r.blocks, b.Contains a := by
  have hexact : a &&& 0xFFF#12 = a := BitVec.and_allOnes
  have hfreq : a &&& 0xF00#12 = 0x200#12 ↔ a.extractLsb' 8 4 = 0b0010#4 := and_topMask_eq_iff (lo := 8) a 0b0010#4
  have hlink : a &&& 0xE00#12 = 0x400#12 ↔ a.extractLsb' 9 3 = 0b010#3 := and_topMask_eq_iff (lo := 9) a 0b010#3
  have hweight : a &&& 0xE00#12 = 0x800#12 ↔ a.extractLsb' 9 3 = 0b100#3 := and_topMask_eq_iff (lo := 9) a 0b100#3
  rw [regionOf_eq_iff]
  cases r with
  | param | ctrl | status | root | merges =>
    simp only [Region.blocks, List.mem_singleton, exists_eq_left, Block.Contains, hexact]
    rw [← BitVec.toNat_inj]
    exact Iff.rfl
  | freq =>
    simpa [Region.blocks, Region.Contains, Block.Contains, hexact, hfreq] using
      (topBits_or_end_iff a rfl 0b0010#4 (e := 0x300#12) rfl).symm
  | nodeLink =>
    simpa [Region.blocks, Region.Contains, Block.Contains, hexact, hlink] using
      (topBits_or_end_iff a rfl 0b010#3 (e := 0x600#12) rfl).symm
  | nodeWeight =>
    simpa [Region.blocks, Region.Contains, Block.Contains, hexact, hweight] using
      (topBits_or_end_iff a rfl 0b100#3 (e := 0xA00#12) rfl).symm
  | unmapped => exact absurd rfl hr

/-- The command codes that the rows of a region tell apart, as mask and code: for the writes to CTRL those of
30_encoding.md R74, and elsewhere none. -/
def commandBlocks : Region → Bool → List (Block 4)
  | .ctrl, true => [⟨0xF#4, 0x0#4⟩, ⟨0xF#4, 0x1#4⟩, ⟨0xF#4, 0x2#4⟩, ⟨0xF#4, 0x3#4⟩, ⟨0xC#4, 0x4#4⟩, ⟨0x8#4, 0x8#4⟩]
  | _, _ => [⟨0x0#4, 0x0#4⟩]

theorem exists_commandBlock (g : Region) (we : Bool) (c : BitVec 4) : ∃ k ∈ commandBlocks g we, k.Contains c := by
  unfold Block.Contains
  revert c
  cases we <;> cases g <;> decide

/-- Under a mask within DATA[3:0] only CMD is compared. -/
theorem and_setWidth (d : Word) (k : BitVec 4) : d &&& k.setWidth 32 = (cmdOf d &&& k).setWidth 32 := by
  apply BitVec.eq_of_getLsbD_eq
  intro i hi
  by_cases hlow : i < 4
  · simp [cmdOf, hlow, hi]
  · simp [hi, BitVec.getLsbD_of_ge k i (Nat.not_lt.mp hlow)]

/-! ### What the table's rows say, row by row -/

/-- The rows of priority 0. -/
def mappedRows : List OpcodeRow := opcodeRowsRegisters ++ opcodeRowsNodes

theorem matchingRows_zero (t : Transaction) : matchingRows 0 t = mappedRows.filter (·.selects t) := by
  have hrows : opcodeTable.filter (·.priority == 0) = mappedRows := by decide
  simp only [← hrows, List.filter_filter, matchingRows, Bool.and_comm]

theorem mem_matchingRows_zero {r : OpcodeRow} {t : Transaction} :
    r ∈ matchingRows 0 t ↔ r ∈ mappedRows ∧ r.selects t = true := by
  rw [matchingRows_zero, List.mem_filter]

/-- The rows of priority 1 compare WE alone. -/
theorem selects_default (t : Transaction) :
    ∀ r ∈ opcodeRowsDefault, r.selects t = (weOf t == weOf r.pattern) := by
  intro r hr
  have hrows : ∀ r ∈ opcodeRowsDefault, r.mask = assemble true 0#12 0#32 ∧ addrOf r.pattern = 0#12 ∧
      dataOf r.pattern = 0#32 := by decide
  obtain ⟨hmask, haddr, hdata⟩ := hrows r hr
  rw [Bool.eq_iff_iff, r.selects_iff, hmask, weOf_assemble, addrOf_assemble, dataOf_assemble, haddr, hdata,
    BitVec.and_zero, BitVec.and_zero, Bool.and_true, beq_iff_eq]
  simp only [and_true]

theorem matchingRows_one (t : Transaction) :
    matchingRows 1 t = opcodeRowsDefault.filter fun r => weOf t == weOf r.pattern := by
  have hrows : opcodeTable.filter (·.priority == 1) = opcodeRowsDefault := by decide
  rw [← List.filter_congr (selects_default t)]
  simp only [← hrows, List.filter_filter, matchingRows, Bool.and_comm]

/-- In the bits that both rows compare, their patterns differ. -/
def OpcodeRow.Excludes (r r' : OpcodeRow) : Prop := r.pattern &&& r'.mask ≠ r'.pattern &&& r.mask

theorem OpcodeRow.Excludes.not_both {r r' : OpcodeRow} (h : r.Excludes r') {t : Transaction}
    (hs : r.selects t = true) : r'.selects t ≠ true := by
  intro hs'
  rw [OpcodeRow.selects, beq_iff_eq] at hs hs'
  apply h
  rw [← hs, ← hs', BitVec.and_assoc, BitVec.and_assoc, BitVec.and_comm r.mask]

theorem mappedRows_exclude : mappedRows.Pairwise OpcodeRow.Excludes := by
  unfold OpcodeRow.Excludes
  decide

theorem mappedRows_fields : ∀ r ∈ mappedRows, weOf r.mask = true ∧ regionOf (addrOf r.pattern) ≠ .unmapped ∧
    ⟨addrOf r.mask, addrOf r.pattern⟩ ∈ (regionOf (addrOf r.pattern)).blocks := by decide

theorem mappedRows_mnemonic : ∀ r ∈ mappedRows, (decode r.pattern).mnemonic = r.mnemonic := by decide

/-- The rows of the CTRL writes follow the command codes of 30_encoding.md R74. -/
theorem mappedRows_command : ∀ r ∈ mappedRows, weOf r.pattern = true → regionOf (addrOf r.pattern) = .ctrl →
    ∀ c : BitVec 4, c &&& cmdOf (dataOf r.mask) = cmdOf (dataOf r.pattern) → (decodeCommand c).mnemonic = r.mnemonic := by
  decide

/-- Every block has its rows for reads and for writes: one for each masked command code where there are commands. -/
theorem mappedRows_cover (g : Region) (we : Bool) : ∀ b ∈ g.blocks, ∀ k ∈ commandBlocks g we,
    (assemble we b.base (k.base.setWidth 32), assemble true b.mask (k.mask.setWidth 32)) ∈
      mappedRows.map fun r => (r.pattern, r.mask) := by
  cases we <;> cases g <;> decide

/-! ### The rows that select a word -/

theorem decode_of_command {t : Transaction} (hwe : weOf t = true) (hr : regionOf (addrOf t) = .ctrl) :
    decode t = decodeCommand (cmdOf (dataOf t)) := by
  rw [decode_of_write hwe, decodeWrite, hr]

/-- But for commands, the mnemonic depends on WE and the region alone (30_encoding.md R73). -/
theorem mnemonic_decode_congr {t u : Transaction} (hwe : weOf t = weOf u) (hr : regionOf (addrOf t) = regionOf (addrOf u))
    (hc : weOf u = true → regionOf (addrOf u) ≠ .ctrl) : (decode t).mnemonic = (decode u).mnemonic := by
  cases hu : weOf u with
  | false =>
    rw [decode_of_read (hwe.trans hu), decode_of_read hu, decodeRead, decodeRead, hr]
    cases regionOf (addrOf u) <;> rfl
  | true =>
    rw [decode_of_write (hwe.trans hu), decode_of_write hu, decodeWrite, decodeWrite, hr]
    cases hg : regionOf (addrOf u) with
    | ctrl => exact absurd hg (hc hu)
    | param | status | root | merges | freq | nodeLink | nodeWeight | unmapped => rfl

/-- A priority-0 row selects only words of the WE bit and the region of its pattern. -/
theorem fields_of_selects {r : OpcodeRow} (hr : r ∈ mappedRows) {t : Transaction} (hs : r.selects t = true) :
    weOf t = weOf r.pattern ∧ regionOf (addrOf t) = regionOf (addrOf r.pattern) ∧
      cmdOf (dataOf t) &&& cmdOf (dataOf r.mask) = cmdOf (dataOf r.pattern) := by
  obtain ⟨hmask, hmapped, hblock⟩ := mappedRows_fields r hr
  obtain ⟨hwe, haddr, hdata⟩ := (r.selects_iff t).mp hs
  refine ⟨?_, (regionOf_eq_iff_block _ hmapped).mpr ⟨_, hblock, haddr⟩, ?_⟩
  · rw [← hwe, hmask, Bool.and_true]
  · rw [← hdata]
    exact BitVec.extractLsb'_and.symm

/-- A priority-0 row that selects a word names the operation that the decoder selects. -/
theorem mnemonic_of_selects {r : OpcodeRow} (hr : r ∈ mappedRows) {t : Transaction} (hs : r.selects t = true) :
    (decode t).mnemonic = r.mnemonic := by
  obtain ⟨hwe, hregion, hcmd⟩ := fields_of_selects hr hs
  by_cases hc : weOf r.pattern = true ∧ regionOf (addrOf r.pattern) = .ctrl
  · obtain ⟨hw, hctrl⟩ := hc
    rw [decode_of_command (hwe.trans hw) (hregion.trans hctrl)]
    exact mappedRows_command r hr hw hctrl _ hcmd
  · calc (decode t).mnemonic
      _ = (decode r.pattern).mnemonic := mnemonic_decode_congr hwe hregion (not_and.mp hc)
      _ = r.mnemonic := mappedRows_mnemonic r hr

/-- Every word of a mapped address has a row of priority 0 (30_encoding.md R73). -/
theorem exists_selects {t : Transaction} (h : regionOf (addrOf t) ≠ .unmapped) : ∃ r ∈ mappedRows, r.selects t = true := by
  obtain ⟨b, hb, haddr⟩ := (regionOf_eq_iff_block (addrOf t) h).mp rfl
  obtain ⟨k, hk, hcmd⟩ := exists_commandBlock (regionOf (addrOf t)) (weOf t) (cmdOf (dataOf t))
  obtain ⟨r, hr, hrow⟩ := List.mem_map.mp (mappedRows_cover _ (weOf t) b hb k hk)
  obtain ⟨hpattern, hmask⟩ := Prod.mk.inj hrow
  refine ⟨r, hr, (r.selects_iff t).mpr ⟨?_, ?_, ?_⟩⟩
  · rw [hpattern, hmask, weOf_assemble, weOf_assemble, Bool.and_true]
  · rw [hpattern, hmask, addrOf_assemble, addrOf_assemble]
    exact haddr
  · rw [hpattern, hmask, dataOf_assemble, dataOf_assemble, and_setWidth]
    exact congrArg (BitVec.setWidth 32) hcmd

/-- Two priority-0 rows that selected one word would exclude each other. -/
theorem length_matchingRows_zero (t : Transaction) : (matchingRows 0 t).length ≤ 1 := by
  have hexclude : (matchingRows 0 t).Pairwise OpcodeRow.Excludes :=
    matchingRows_zero t ▸ mappedRows_exclude.sublist List.filter_sublist
  have hselects : ∀ r ∈ matchingRows 0 t, r.selects t = true := fun _ hr => (mem_matchingRows_zero.mp hr).2
  match matchingRows 0 t, hexclude, hselects with
  | [], _, _ => exact Nat.zero_le 1
  | [_], _, _ => exact Nat.le_refl 1
  | r :: r' :: _, hexclude, hselects =>
    have hrr' : r.Excludes r' := List.rel_of_pairwise_cons hexclude List.mem_cons_self
    exact absurd (hselects r' (by simp)) (hrr'.not_both (hselects r (by simp)))

theorem length_matchingRows_one (t : Transaction) : (matchingRows 1 t).length = 1 := by
  rw [matchingRows_one]
  cases weOf t <;> rfl

/-! ### The lookup -/

theorem tableLookup_of_zero {t : Transaction} {r : OpcodeRow} {rows : List OpcodeRow} (h : matchingRows 0 t = r :: rows) :
    tableLookup t = some r.mnemonic := by
  simp only [tableLookup, h]

theorem tableLookup_of_default {t : Transaction} (h : matchingRows 0 t = []) :
    tableLookup t = some (if weOf t then .wrUnmapped else .rdUnmapped) := by
  simp only [tableLookup, h, matchingRows_one]
  cases weOf t <;> rfl

theorem mnemonic_of_unmapped {t : Transaction} (h : regionOf (addrOf t) = .unmapped) :
    (decode t).mnemonic = if weOf t then .wrUnmapped else .rdUnmapped := by
  have haddr := (unmappedAddr_iff (addrOf t)).mpr h
  cases hwe : weOf t with
  | false => exact congrArg Instr.mnemonic ((decode_of_read hwe).trans (decodeRead_of_unmapped haddr))
  | true => exact congrArg Instr.mnemonic ((decode_of_write hwe).trans (decodeWrite_of_unmapped haddr _))

/-- The table's reading of a word is the decoder's (30_encoding.md R73, R81). -/
theorem tableLookup_eq (t : Transaction) : tableLookup t = some (decode t).mnemonic := by
  cases hrows : matchingRows 0 t with
  | cons r rows =>
    obtain ⟨hr, hs⟩ := mem_matchingRows_zero.mp (hrows ▸ List.mem_cons_self : r ∈ matchingRows 0 t)
    rw [tableLookup_of_zero hrows, mnemonic_of_selects hr hs]
  | nil =>
    have hunmapped : regionOf (addrOf t) = .unmapped := by
      by_contra hmapped
      obtain ⟨r, hr, hs⟩ := exists_selects hmapped
      exact List.ne_nil_of_mem (mem_matchingRows_zero.mpr ⟨hr, hs⟩) hrows
    rw [tableLookup_of_default hrows, mnemonic_of_unmapped hunmapped]

end Sys2Proof
end

section
/-! The lines of a host program (30_encoding.md R79, R80): each writes the word of an operation, which decoding gives
back. -/

namespace Sys2Proof.Machine

theorem decode_wr_freqPlus (i : Sym) (v : Word) : decode (wr (.freqPlus i) v) = .wrFreq i v :=
  decode_encode (i := .wrFreq i v) rfl

theorem map_decode_poll (again : Nat) :
    (List.replicate (again + 1) (rd .status)).map decode = List.replicate (again + 1) .rdStatus := by
  rw [List.map_replicate, show decode (rd .status) = .rdStatus from rfl]

theorem map_decode_setNonZero (counts : Vector Word 257) : (setNonZero counts).map decode =
    ((List.finRange 257).filter fun i => !(counts[i] == 0#32)).map fun i => .wrFreq i counts[i] := by
  rw [setNonZero, List.map_map]
  exact List.map_congr_left fun i _ => decode_wr_freqPlus i counts[i]

end Sys2Proof.Machine
end

section
namespace Sys2Proof
open Machine

/-- Settles O1: the encoder's inverse, operation by operation. -/
theorem decodeOfEncodeGivesInstruction : Obligations.DecodeOfEncodeGivesInstruction := fun _ h => decode_encode h

/-- Settles O2: what a read or a write selects has the fields of the word, and `encode` writes those fields. -/
theorem encodeOfDecodeKeepsUsedBits : Obligations.EncodeOfDecodeKeepsUsedBits := by
  intro t
  obtain ⟨hwe, haddr, hdata⟩ := Laws.EncodedFields.fields_of_encode (decode t)
  rw [hwe, haddr, hdata]
  cases ht : weOf t with
  | false =>
    rw [decode_of_read ht]
    obtain ⟨hwf, hread, ha⟩ := decodeRead_fields (addrOf t)
    exact ⟨hwf, hread, ha, nofun, nofun⟩
  | true =>
    rw [decode_of_write ht]
    obtain ⟨hwf, hwrite, ha⟩ := decodeWrite_fields (addrOf t) (dataOf t)
    obtain ⟨hfreq, hctrl⟩ := decodeWrite_data (addrOf t) (dataOf t)
    exact ⟨hwf, hwrite, ha, fun _ => hfreq, fun _ => hctrl⟩

/-- Settles O4: a row of priority 0 that selects a word names its operation, no two do, and every mapped address has one. -/
theorem decodeAgreesWithOpcodeTable : Obligations.DecodeAgreesWithOpcodeTable :=
  fun t => ⟨tableLookup_eq t, length_matchingRows_zero t, length_matchingRows_one t⟩

/-- Settles O7: each line of a host program writes the word of the operation it stands for, which `decode_encode` reads
back. -/
theorem pseudoInstructionsAreTheirTransactions : Obligations.PseudoInstructionsAreTheirTransactions := by
  refine ⟨?commandsAndPoll, ?setf, ?registerReads, ?windowReads, ?loadtable⟩
  case commandsAndPoll => exact fun again => ⟨rfl, rfl, rfl, rfl, map_decode_poll again⟩
  case setf => exact fun _ i v => congrArg (fun x => [x]) (decode_wr_freqPlus i v)
  case registerReads => exact ⟨rfl, rfl, rfl, rfl, rfl⟩
  case windowReads =>
    exact fun i n => ⟨decode_encode (i := .rdFreq i) rfl, decode_encode (i := .rdLink n) rfl,
      decode_encode (i := .rdWeight n) rfl⟩
  case loadtable =>
    intro again counts
    rw [Pseudo.expand, List.cons_append, List.map_cons, List.map_append, map_decode_poll, map_decode_setNonZero]
    rfl

/-- Settles O3: the three arms of the decoder that do not read the DATA bits in question. -/
theorem ignoredDataBitsDoNotDecode : Obligations.IgnoredDataBitsDoNotDecode := by
  intro a d d'
  refine ⟨?read, ?ctrl, ?readOnly⟩
  case read => rw [decode_assemble_read, decode_assemble_read]
  case ctrl =>
    intro h
    rw [decode_assemble_ctrl, decode_assemble_ctrl]
    exact congrArg decodeCommand h
  case readOnly =>
    intro h
    rw [decode_assemble_write, decode_assemble_write, decodeWrite_of_readOnly h, decodeWrite_of_readOnly h]

/-- Settles O6: the decoder run on each of the eight words. -/
theorem writtenOutWordsDecode : Obligations.WrittenOutWordsDecode := by
  unfold Obligations.WrittenOutWordsDecode
  decide

/-- Settles O13: `rst` first, then the handshake, and the pins are the fields of the word. -/
theorem clockEdgeGivesItsTransaction : Obligations.ClockEdgeGivesItsTransaction := by
  intro p
  refine ⟨?reset, ?noHandshake, ?transaction⟩
  case reset =>
    intro hrst
    simp [edgeInputs, hrst]
  case noHandshake =>
    intro hrst hlow
    rcases hlow with h | h <;> simp [edgeInputs, hrst, h]
  case transaction =>
    intro hrst hreq hack
    refine ⟨assemble p.busWe p.busAddr p.busWdata, ?_, weOf_assemble .., addrOf_assemble .., dataOf_assemble ..⟩
    simp [edgeInputs, hrst, hreq, hack, assemble]

end Sys2Proof
end

section
/-! What a host transaction returns and what it may touch (40_host_operations.md R100 to R117): the accepted forms of the
three operations that need IDLE, the response, and the flags, each said once of `exec`. -/

namespace Sys2Proof.Machine

/-! ### Accepted operations (40_host_operations.md R104, R105, R110) -/

section
variable {s : State} (hp : s.phase = .idle)
include hp

theorem exec_cmdBuild_of_idle : exec .cmdBuild s = .next (acknowledge (startBuild s)) :=
  congrArg Host.Outcome.next (whenIdle_idle hp)

theorem exec_cmdClearf_of_idle : exec .cmdClearf s = .next (acknowledge (startClear s)) :=
  congrArg Host.Outcome.next (whenIdle_idle hp)

theorem exec_wrFreq_of_idle (i : Sym) (v : Word) : exec (.wrFreq i v) s = .next (acknowledge (writeFreq i v s)) :=
  congrArg Host.Outcome.next (whenIdle_idle hp)

end

/-! ### The response (30_encoding.md R71, 40_host_operations.md R100) -/

/-- An operation under the busy check is a write, accepted or not. -/
@[simp] theorem whenIdle_rdata (effect : State → State) (s : State) : (whenIdle effect s).rdata = none := by
  unfold whenIdle
  split <;> rfl

/-- A read leaves a response and a write leaves none. -/
theorem exec_rdata {i : Instr} {s t : State} (h : exec i s = .next t) :
    (i.we = false → ∃ v, t.rdata = some v) ∧ (i.we = true → t.rdata = none) := by
  cases i with
  | rdParam | rdCtrl | rdStatus | rdRoot | rdMerges | rdFreq _ | rdLink _ | rdWeight _ | rdUnmapped _ =>
    obtain rfl := Host.Outcome.next.inj h
    exact ⟨fun _ => ⟨_, rfl⟩, nofun⟩
  | cmdNop | cmdClearerr | cmdRsvd _ | wrRo _ | wrUnmapped _ =>
    obtain rfl := Host.Outcome.next.inj h
    exact ⟨nofun, fun _ => rfl⟩
  | cmdBuild | cmdClearf | wrFreq _ _ =>
    obtain rfl := Host.Outcome.next.inj h
    exact ⟨nofun, fun _ => whenIdle_rdata _ s⟩

/-! ### The model's own fields and the control registers -/

/-- No host operation touches the moves to come, the port's outputs or the reset counter (log entries 1, 5, 10). -/
theorem exec_environment {i : Instr} {s t : State} (h : exec i s = .next t) :
    t.inputs = s.inputs ∧ t.portOut = s.portOut ∧ t.resets = s.resets := by
  rcases exec_cases h with ⟨-, -, v, rfl⟩ | ⟨-, rfl⟩ | ⟨-, -, rfl⟩ | ⟨-, -, rfl⟩ | ⟨j, v, -, -, rfl⟩ | ⟨-, -, rfl⟩ |
    ⟨-, rfl⟩ | ⟨c, -, rfl⟩ | ⟨a, -, rfl⟩ | ⟨a, -, rfl⟩
  all_goals exact ⟨rfl, rfl, rfl⟩

/-- Without an accepted BUILD the registers of a build's progress stay (40_host_operations.md R104, R105). -/
theorem exec_progress {i : Instr} {s t : State} (h : exec i s = .next t) (hb : ¬ (i = .cmdBuild ∧ s.phase = .idle)) :
    t.initDone = s.initDone ∧ t.treeValid = s.treeValid := by
  rcases exec_control h with regs | ⟨hi, hp, -⟩ | ⟨-, -, regs⟩
  · exact ⟨congrArg Control.initDone regs, congrArg Control.treeValid regs⟩
  · exact absurd ⟨hi, hp⟩ hb
  · exact ⟨congrArg Control.initDone regs, congrArg Control.treeValid regs⟩

/-- `STATE` stays without an accepted BUILD or CLEAR_FREQ (40_host_operations.md R104, R105). -/
theorem exec_phase {i : Instr} {s t : State} (h : exec i s = .next t)
    (hb : ¬ ((i = .cmdBuild ∨ i = .cmdClearf) ∧ s.phase = .idle)) : t.phase = s.phase := by
  rcases exec_control h with regs | ⟨hi, hp, -⟩ | ⟨hi, hp, -⟩
  · exact congrArg Control.phase regs
  · exact absurd ⟨.inl hi, hp⟩ hb
  · exact absurd ⟨.inr hi, hp⟩ hb

/-- An entry of FREQ stays without an accepted write of it (40_host_operations.md R110). -/
theorem exec_freq_get {i : Instr} {s t : State} (h : exec i s = .next t) {j : Sym}
    (hw : ∀ v, ¬ (i = .wrFreq j v ∧ s.phase = .idle)) : t.freq[j] = s.freq[j] ∧ freqValue t j = freqValue s j := by
  rcases exec_freq h with ⟨hf, hr⟩ | ⟨k, v, rfl, hp, rfl⟩
  · exact ⟨by rw [hf], freqValue_congr hf hr j⟩
  · have hjk : j ≠ k := by
      rintro rfl
      exact hw v ⟨rfl, hp⟩
    exact ⟨(writeFreq_get k j v s).trans (if_neg hjk),
      (freqValue_acknowledge _ j).trans ((freqValue_writeFreq k j v s).trans (if_neg hjk))⟩

/-! ### The error flags -/

/-- The operations that raise a flag (60_exceptions.md R202): the host raises no ERR_OVF. -/
def RaisesFlag (i : Instr) (s : State) : ErrorFlag → Prop
  | .ovf => False
  | .cmd => ∃ c, i = .cmdRsvd c
  | .busy => s.phase ≠ .idle ∧ (i = .cmdBuild ∨ i = .cmdClearf ∨ ∃ j v, i = .wrFreq j v)
  | .addr => ∃ a, i = .rdUnmapped a ∨ i = .wrRo a ∨ i = .wrUnmapped a

/-- The state after `i` raises a flag: the flag is set, and a read returns 0 (60_exceptions.md R201). -/
def raisedBy (i : Instr) (e : ErrorFlag) (s : State) : State :=
  { s.setFlag e with rdata := if i.we = true then none else some 0#32 }

theorem raisedBy_flag (i : Instr) (e e' : ErrorFlag) (s : State) :
    (raisedBy i e s).flag e' = (s.flag e' || decide (e' = e)) :=
  (congrFun (State.flag_ext rfl rfl rfl rfl) e').trans (setFlag_flag e e' s)

/-- What a host operation does to the flags: it leaves them, raises one, or clears them, an accepted BUILD only
ERR_OVF. -/
theorem exec_flag {i : Instr} {s t : State} (h : exec i s = .next t) :
    t.flag = s.flag ∨ (∃ e, RaisesFlag i s e ∧ t = raisedBy i e s) ∨ (i = .cmdClearerr ∧ t = clearErrors s) ∨
      (i = .cmdBuild ∧ s.phase = .idle ∧ t.flag = (startBuild s).flag) := by
  rcases exec_cases h with ⟨-, -, v, rfl⟩ | ⟨-, rfl⟩ | ⟨hi, hp, rfl⟩ | ⟨-, -, rfl⟩ | ⟨j, v, -, -, rfl⟩ |
    ⟨hi, hp, rfl⟩ | hclear | ⟨c, rfl, rfl⟩ | ⟨a, rfl, rfl⟩ | ⟨a, hi, rfl⟩
  · exact .inl (State.flag_ext rfl rfl rfl rfl)
  · exact .inl (State.flag_ext rfl rfl rfl rfl)
  · exact .inr (.inr (.inr ⟨hi, hp, State.flag_ext rfl rfl rfl rfl⟩))
  · exact .inl (State.flag_ext rfl rfl rfl rfl)
  · exact .inl (State.flag_ext rfl rfl rfl rfl)
  · refine .inr (.inl ⟨.busy, ⟨hp, hi⟩, ?_⟩)
    rcases hi with rfl | rfl | ⟨j, v, rfl⟩ <;> rfl
  · exact .inr (.inr (.inl hclear))
  · exact .inr (.inl ⟨.cmd, ⟨c, rfl⟩, rfl⟩)
  · exact .inr (.inl ⟨.addr, ⟨a, .inl rfl⟩, rfl⟩)
  · refine .inr (.inl ⟨.addr, ⟨a, .inr hi⟩, ?_⟩)
    rcases hi with rfl | rfl <;> rfl

/-- A flag that a host operation changes is either cleared by CLEAR_ERR or an accepted BUILD, or raised. -/
theorem exec_flag_change {i : Instr} {s t : State} (h : exec i s = .next t) {e : ErrorFlag} (hne : t.flag e ≠ s.flag e) :
    (t.flag e = false ∧ (i = .cmdClearerr ∨ (i = .cmdBuild ∧ s.phase = .idle ∧ e = .ovf))) ∨
      (RaisesFlag i s e ∧ t = raisedBy i e s) := by
  rcases exec_flag h with flags | ⟨e', hraises, rfl⟩ | ⟨hi, rfl⟩ | ⟨hi, hp, flags⟩
  · exact absurd (congrFun flags e) hne
  · have he : e = e' := by
      by_contra he
      exact hne (by simp [raisedBy_flag, he])
    subst he
    exact .inr ⟨hraises, rfl⟩
  · exact .inl ⟨clearFlags_flag e s, .inl hi⟩
  · rw [flags, startBuild_flag] at hne
    have he : e = .ovf := by
      by_contra he
      exact hne (by simp [he])
    subst he
    exact .inl ⟨by rw [flags]; rfl, .inr ⟨hi, hp, rfl⟩⟩

/-- Of the flags that no BUILD clears, each changes by CLEAR_ERR or where an operation raises it (10_state.md R29). -/
theorem exec_flag_change_of_ne_ovf {i : Instr} {s t : State} (h : exec i s = .next t) {e : ErrorFlag} (he : e ≠ .ovf)
    (hne : t.flag e ≠ s.flag e) : i = .cmdClearerr ∨ RaisesFlag i s e := by
  rcases exec_flag_change h hne with ⟨-, hi | ⟨-, -, hovf⟩⟩ | ⟨hraises, -⟩
  · exact .inl hi
  · exact absurd hovf he
  · exact .inr hraises

end Sys2Proof.Machine

namespace Sys2Proof

/-- The operation that a word selects reads or writes as the word's WE says (30_encoding.md R73). -/
theorem decode_we (t : Transaction) : (decode t).we = weOf t := by
  cases ht : weOf t with
  | false =>
    obtain ⟨-, hread, -⟩ := decodeRead_fields (addrOf t)
    rw [decode_of_read ht, hread]
  | true =>
    obtain ⟨-, hwrite, -⟩ := decodeWrite_fields (addrOf t) (dataOf t)
    rw [decode_of_write ht, hwrite]

end Sys2Proof
end

section
namespace Sys2Proof
open Machine

/-- Settles O28: every operation answers, and its response follows WE of the word. -/
theorem everyTransactionCompletes : Obligations.EveryTransactionCompletes := by
  intro t s
  obtain ⟨u, hu⟩ := exec_next (decode t) s
  have hresponse := exec_rdata hu
  rw [decode_we] at hresponse
  exact ⟨u, hu, hresponse⟩

/-- Settles O30: the frame of each part of the state, one lemma per part. -/
theorem transactionFrame : Obligations.TransactionFrame := by
  intro i s t h
  obtain ⟨hinputs, hport, hresets⟩ := exec_environment h
  refine ⟨hinputs, hport, hresets, fun j => exec_freq_get h, ?store, exec_phase h, ?ovf, ?cmd, ?busy, ?addr⟩
  case store =>
    intro hb
    obtain ⟨hn, hm⟩ := (exec_store h).resolve_right hb
    exact ⟨hn, nodeWords_congr hn, hm, exec_progress h hb⟩
  case ovf =>
    intro hne
    rcases exec_flag_change h (e := .ovf) hne with ⟨-, hi | ⟨hi, hp, -⟩⟩ | ⟨hraises, -⟩
    · exact .inl hi
    · exact .inr ⟨hi, hp⟩
    · exact hraises.elim
  case cmd => exact exec_flag_change_of_ne_ovf h (e := .cmd) nofun
  case busy => exact exec_flag_change_of_ne_ovf h (e := .busy) nofun
  case addr => exact exec_flag_change_of_ne_ovf h (e := .addr) nofun

/-- Settles O31: a flag that goes up is not one of the cleared, so the operation is one that raises it. -/
theorem raisingTransactionChangesOneFlag : Obligations.RaisingTransactionChangesOneFlag := by
  intro i s t e h h0 h1
  rcases exec_flag_change h (e := e) (by simp [h0, h1]) with ⟨hlow, -⟩ | ⟨-, rfl⟩
  · simp [h1] at hlow
  · exact ⟨rfl, fun e' he => by simp [raisedBy_flag, he]⟩

end Sys2Proof
end

section
/-! The words that the reads return, field by field (10_state.md R26, R32 to R37). A field of a word that is put together
from parts is found part by part, from the low end. -/

namespace Sys2Proof.Machine

/-- A read with its response known. -/
theorem next_respond {v w : Word} (h : v = w) (s : State) :
    (.next (respond v s) : Result) = .next { s with rdata := some w } := by
  rw [h]
  rfl

/-! ### STATUS (10_state.md R32) -/

theorem statusWord_state (s : State) : (statusWord s).extractLsb' 0 2 = s.phase.code := by
  rw [statusWord, BitVec.extractLsb'_append_eq_of_add_le (by decide), BitVec.extractLsb'_eq_self]

/-- Each flag stands at its cause code (60_exceptions.md R202). -/
theorem statusWord_flag (s : State) (e : ErrorFlag) : (statusWord s).getLsbD e.causeCode = s.flag e := by
  simp only [statusWord, BitVec.getLsbD_append]
  cases e <;> simp [ErrorFlag.causeCode]

theorem statusWord_treeValid (s : State) : (statusWord s).getLsbD 2 = s.treeValid := by
  simp only [statusWord, BitVec.getLsbD_append]
  simp

theorem statusWord_reservedBit (s : State) : (statusWord s).getLsbD 3 = false := by
  simp only [statusWord, BitVec.getLsbD_append]
  simp

theorem statusWord_high (s : State) : (statusWord s).extractLsb' 8 24 = 0#24 := by
  simp only [statusWord, BitVec.extractLsb'_append_eq_of_le, Nat.reduceLeDiff, Nat.reduceSub, BitVec.extractLsb'_eq_self]

/-! ### ROOT and MERGES (10_state.md R33, R34) -/

theorem rootWord_eq (s : State) : rootWord s = if s.treeValid = true then 0x00000200#32 else 0x00000000#32 := by
  unfold rootWord rootId
  split <;> rfl

theorem mergesWord_toNat (s : State) : (mergesWord s).toNat = s.merges.toNat := BitVec.toNat_setWidth_of_le (by decide)

/-! ### FREQ (10_state.md R37) -/

theorem freqValue_written {s : State} {i : Sym} {v : Word} (h : s.freq[i] = .written v) : freqValue s i = v := by
  simp only [freqValue, h]

theorem freqValue_unwritten {s : State} {i : Sym} (h : s.freq[i] = .unwritten) :
    freqValue s i = Config.unwrittenFreq s.resets i := by
  simp only [freqValue, h]

/-! ### Node words (10_state.md R26, R35) -/

theorem nodeLink_valid {e : Node} (h : e.valid = true) : nodeLink e = packNode e := if_pos h

theorem packNode_bits (e : Node) : (packNode e).getLsbD 31 = true ∧ (packNode e).getLsbD 30 = e.leaf ∧
    (packNode e).getLsbD 29 = e.queued := by
  simp only [packNode, BitVec.getLsbD_append]
  simp

theorem packNode_fields (e : Node) : (packNode e).extractLsb' 20 9 = e.symbol ∧
    (packNode e).extractLsb' 10 10 = e.right ∧ (packNode e).extractLsb' 0 10 = e.left := by
  unfold packNode
  refine ⟨?symbol, ?right, ?left⟩
  case symbol =>
    rw [BitVec.extractLsb'_append_eq_of_le (by decide), BitVec.extractLsb'_append_eq_of_le (by decide)]
    exact BitVec.extractLsb'_append_eq_right
  case right =>
    rw [BitVec.extractLsb'_append_eq_of_le (by decide)]
    exact BitVec.extractLsb'_append_eq_right
  case left => exact BitVec.extractLsb'_append_eq_right

/-- After an accepted BUILD every entry is invalid and unqueued, and so reads 0 (40_host_operations.md R104). -/
theorem acknowledge_startBuild_node (s : State) (n : NodeId) :
    (acknowledge (startBuild s)).nodes[n].valid = false ∧ (acknowledge (startBuild s)).nodes[n].queued = false ∧
      link (acknowledge (startBuild s)) n = 0#32 ∧ weight (acknowledge (startBuild s)) n = 0#32 := by
  have hn : (acknowledge (startBuild s)).nodes[n] = invalidateNode s.nodes[n] := invalidateStore_get s.nodes n
  rw [link, weight, hn]
  exact ⟨rfl, rfl, nodeLink_invalid rfl, nodeWeight_invalid rfl⟩

end Sys2Proof.Machine
end

section
namespace Sys2Proof
open Machine

/-- Settles O14: PARAM is put together from the parameters of 00_scope.md R7, and CTRL reads 0. -/
theorem rdParamAndRdCtrlReturnConstants : Obligations.RdParamAndRdCtrlReturnConstants :=
  fun s => ⟨next_respond paramWord_eq s, rfl⟩

/-- Settles O15: the fields of STATUS. -/
theorem rdStatusReturnsStatusBits : Obligations.RdStatusReturnsStatusBits := by
  intro s
  refine ⟨statusWord s, rfl, ?state, statusWord_treeValid s, statusWord_reservedBit s, statusWord_flag s .ovf,
    statusWord_flag s .cmd, statusWord_flag s .busy, statusWord_flag s .addr, statusWord_flag s, statusWord_high s⟩
  case state =>
    rw [statusWord_state]
    cases s.phase <;> rfl

/-- Settles O16: ROOT by TREE_VALID, and MERGES zero-extended. -/
theorem rdRootAndRdMergesReturnProgress : Obligations.RdRootAndRdMergesReturnProgress :=
  fun s => ⟨next_respond (rootWord_eq s) s, mergesWord s, rfl, mergesWord_toNat s⟩

/-- Settles O17: NOP only completes, and code 0 selects it. -/
theorem cmdNopChangesNothing : Obligations.CmdNopChangesNothing := by
  refine ⟨fun _ => rfl, fun d hd => ?_⟩
  rw [decode_assemble_ctrl, cmdOf, hd]
  rfl

/-- Settles O18: the registers that an accepted BUILD writes, and every entry as `invalidateStore` leaves it. -/
theorem cmdBuildStartsBuild : Obligations.CmdBuildStartsBuild :=
  fun s hp => ⟨acknowledge (startBuild s), exec_cmdBuild_of_idle hp, rfl, rfl, rfl, rfl, rfl,
    acknowledge_startBuild_node s, rfl, rfl, rfl, rfl, rfl, rfl, rfl, rfl⟩

/-- Settles O19: the busy check passes. -/
theorem cmdClearfStartsClear : Obligations.CmdClearfStartsClear := fun _ hp => exec_cmdClearf_of_idle hp

/-- Settles O20: what `clearErrors` writes. -/
theorem cmdClearerrClearsFlags : Obligations.CmdClearerrClearsFlags := fun s => congrArg Host.Outcome.next (clearErrors_eq s)

/-- Settles O21: the raised flag, and the codes from 4 on. -/
theorem cmdRsvdRaisesErrCmd : Obligations.CmdRsvdRaisesErrCmd := by
  refine ⟨fun _ s => congrArg Host.Outcome.next (raiseOnWrite_cmd s), fun d hd => ?_⟩
  rw [decode_assemble_ctrl]
  exact decodeCommand_of_reserved (decide_eq_true hd)

/-- Settles O23: the accepted write read back, at its entry and at the others. -/
theorem wrFreqStoresCount : Obligations.WrFreqStoresCount := by
  intro s i v hp
  refine ⟨acknowledge (writeFreq i v s), exec_wrFreq_of_idle hp i v, ?entry, ?value, ?others, rfl⟩
  case entry => exact (writeFreq_get i i v s).trans (if_pos rfl)
  case value => exact (freqValue_acknowledge _ i).trans ((freqValue_writeFreq i i v s).trans (if_pos rfl))
  case others => exact fun j hj => (writeFreq_get i j v s).trans (if_neg hj)

/-- Settles O24: the value of an entry, stored or free; the free value depends on the reset count alone. -/
theorem rdFreqReturnsStoredValue : Obligations.RdFreqReturnsStoredValue := by
  refine ⟨fun s i v h => ?written, fun r i => ⟨Config.unwrittenFreq r i, fun s hr h => ?unwritten⟩⟩
  case written => exact next_respond (freqValue_written h) s
  case unwritten =>
    subst hr
    exact next_respond (freqValue_unwritten h) s

/-- Settles O25: the node word, gated by VALID. -/
theorem rdLinkReturnsNodeWord : Obligations.RdLinkReturnsNodeWord := by
  intro s n
  refine ⟨link s n, rfl, fun h => nodeLink_invalid h, fun h => ?_⟩
  obtain ⟨hvalid, hleaf, hqueued⟩ := packNode_bits s.nodes[n]
  rw [link, nodeLink_valid h]
  exact ⟨hvalid, hleaf, hqueued, packNode_fields s.nodes[n]⟩

/-- Settles O26: the response is the entry's weight as VALID gates it. -/
theorem rdWeightReturnsWeight : Obligations.RdWeightReturnsWeight := fun _ _ => rfl

/-- Settles O27: the three access errors raise ERR_ADDR. -/
theorem badAddressesOnlyRaiseErrAddr : Obligations.BadAddressesOnlyRaiseErrAddr :=
  fun s _ => ⟨congrArg Host.Outcome.next (raiseOnRead_addr s), congrArg Host.Outcome.next (raiseOnWrite_addr s),
    congrArg Host.Outcome.next (raiseOnWrite_addr s)⟩

end Sys2Proof
end

section
/-! The sequencer's steps one at a time (41_tree_build.md R140 to R148): which one is enabled, what a turn does when it is,
and what the step of each kind leaves. -/

namespace Sys2Proof.Machine

variable {s : State}

/-! ### The enabled step (41_tree_build.md R140) -/

theorem enabledStep_eq_clear_iff : enabledStep s = some .clear ↔ s.phase = .clearing := by
  unfold enabledStep
  cases s.phase with
  | building => split_ifs <;> simp
  | idle | clearing | reserved => simp

theorem enabledStep_eq_init_iff : enabledStep s = some .init ↔ s.phase = .building ∧ s.initDone = false := by
  unfold enabledStep
  cases s.phase with
  | building => split_ifs with hd <;> simp [hd]
  | idle | clearing | reserved => simp

theorem enabledStep_eq_merge_iff :
    enabledStep s = some .merge ↔ s.phase = .building ∧ s.initDone = true ∧ s.merges.toNat < 256 := by
  unfold enabledStep
  cases s.phase with
  | building => split_ifs with hd hm <;> simp_all
  | idle | clearing | reserved => simp

theorem enabledStep_of_idle (h : s.phase = .idle) : enabledStep s = none := by
  simp [enabledStep, h]

theorem sequencerStep_of_none (h : enabledStep s = none) : sequencerStep s = .next s := by
  simp [sequencerStep, h]

theorem sequencerStep_of_clear (h : enabledStep s = some .clear) : sequencerStep s = .next (clearStep s) := by
  simp [sequencerStep, h]

theorem sequencerStep_of_init (h : enabledStep s = some .init) : sequencerStep s = .next (initStep s) := by
  simp [sequencerStep, h]

theorem sequencerStep_of_merge (h : enabledStep s = some .merge) : sequencerStep s = mergeStep s := by
  simp [sequencerStep, h]

/-! ### INIT (41_tree_build.md R144) -/

theorem writeLeaves_leaf (queued : Bool) (s : State) {n : NodeId} (h : n.val < 257) :
    (writeLeaves queued s)[n] = leafNode queued n.val (freqValue s ⟨n.val, h⟩) := by
  rw [writeLeaves_get, dif_pos h]

theorem writeLeaves_internal (queued : Bool) (s : State) {n : NodeId} (h : 257 ≤ n.val) :
    (writeLeaves queued s)[n] = s.nodes[n] := by
  rw [writeLeaves_get, dif_neg (Nat.not_lt.mpr h)]

theorem writeLeaves_symbol (queued : Bool) (s : State) {n : NodeId} {i : Sym} (h : n.val = i.val) :
    (writeLeaves queued s)[n] = leafNode queued i.val (freqValue s i) := by
  have hn : n.val < 257 := h ▸ i.isLt
  have hi : (⟨n.val, hn⟩ : Sym) = i := Fin.ext h
  rw [writeLeaves_leaf queued s hn, hi, h]

theorem initStep_of_fits (h : (freqList s).sum ≤ Config.MAX_TOTAL) :
    initStep s = { s with nodes := writeLeaves true s, initDone := true } :=
  if_neg (Nat.not_lt.mpr (freqTotal_eq s ▸ h))

theorem initStep_of_exceeds (h : Config.MAX_TOTAL < (freqList s).sum) :
    initStep s = { s with nodes := writeLeaves false s, errOvf := true, phase := .idle } :=
  if_pos (freqTotal_eq s ▸ h)

theorem initStep_nodes (s : State) : ∃ queued, (initStep s).nodes = writeLeaves queued s := by
  rcases initStep_cases s with ⟨-, h⟩ | ⟨-, h⟩
  · exact ⟨false, by rw [h]⟩
  · exact ⟨true, by rw [h]⟩

/-! ### MERGE (41_tree_build.md R145 to R148) -/

theorem merges_add_one {m : BitVec 9} (h : m.toNat < 256) : (m + 1#9).toNat = m.toNat + 1 := by
  bv_omega

theorem mergeStep_of_fits {a b : Key} (hs : selectPair (queueOf s.nodes) = some (a, b))
    (hw : a.weight + b.weight ≤ Config.MAX_TOTAL) : mergeStep s = .next (applyMerge a b s) := by
  simp only [mergeStep, hs, if_pos hw]

theorem applyMerge_nodes (a b : Key) (s : State) : (applyMerge a b s).nodes = mergeNodes s.merges.toNat a b s.nodes := by
  unfold applyMerge
  split <;> rfl

theorem applyMerge_merges (a b : Key) (s : State) : (applyMerge a b s).merges = s.merges + 1#9 := by
  unfold applyMerge
  split <;> rfl

theorem applyMerge_of_more (a b : Key) (h : s.merges.toNat < 255) : applyMerge a b s =
    { s with nodes := mergeNodes s.merges.toNat a b s.nodes, merges := s.merges + 1#9 } :=
  if_neg (by omega)

theorem applyMerge_of_last (a b : Key) (h : s.merges.toNat = 255) : applyMerge a b s =
    { s with nodes := mergeNodes s.merges.toNat a b s.nodes, merges := s.merges + 1#9, treeValid := true,
             phase := .idle, initDone := false } :=
  if_pos (by omega)

/-- The key of a node of the store (00_scope.md R9). -/
def State.key (s : State) (n : NodeId) : Key := { weight := s.nodes[n].weight.toNat, id := n.val }

@[simp] theorem State.key_id (s : State) (n : NodeId) : (s.key n).id = n.val := rfl
@[simp] theorem State.key_weight (s : State) (n : NodeId) : (s.key n).weight = s.nodes[n].weight.toNat := rfl

theorem mem_queueOf_iff_inQueue {x : Key} : x ∈ queueOf s.nodes ↔ ∃ n, InQueue s n ∧ x = s.key n := by
  rw [mem_queueOf]
  exact exists_congr fun n => and_comm

theorem key_lt_iff {m n : NodeId} : (s.key m).lt (s.key n) = true ↔ KeyBefore s m n := Key.lt_iff _ _

/-- The two least nodes of Q are the selected pair (41_tree_build.md R146). -/
theorem NextPair.selectPair_eq {a b : NodeId} (h : NextPair s a b) :
    selectPair (queueOf s.nodes) = some (s.key a, s.key b) := by
  obtain ⟨ha, hb, hne, hleastA, hleastB⟩ := h
  refine selectPair_unique (mem_queueOf_iff_inQueue.mpr ⟨a, ha, rfl⟩) (mem_queueOf_iff_inQueue.mpr ⟨b, hb, rfl⟩)
    (fun e => hne (Fin.ext e)) ?_ ?_
  · intro x hx hxa
    obtain ⟨n, hn, rfl⟩ := mem_queueOf_iff_inQueue.mp hx
    exact key_lt_iff.mpr (hleastA n hn fun e => hxa (e ▸ rfl))
  · intro x hx hxa hxb
    obtain ⟨n, hn, rfl⟩ := mem_queueOf_iff_inQueue.mp hx
    exact key_lt_iff.mpr (hleastB n hn (fun e => hxa (e ▸ rfl)) fun e => hxb (e ▸ rfl))

end Sys2Proof.Machine
end

section
namespace Sys2Proof
open Machine

/-- Settles O32: one equivalence per kind of step. -/
theorem oneSequencerStepEnabled : Obligations.OneSequencerStepEnabled :=
  fun _ => ⟨enabledStep_eq_clear_iff, enabledStep_eq_init_iff, enabledStep_eq_merge_iff, enabledStep_of_idle,
    sequencerStep_of_none⟩

/-- Settles O33: what `clearStep` writes. -/
theorem clearStepZeroesFreq : Obligations.ClearStepZeroesFreq :=
  fun s hp => ⟨clearStep s, sequencerStep_of_clear (enabledStep_eq_clear_iff.mpr hp), rfl,
    fun i => ⟨Vector.getElem_replicate _, freqValue_clearStep s i⟩, rfl⟩

/-- Settles O34: INIT's two cases by the exact total, with the leaves that `writeLeaves` writes in both. -/
theorem initStepQueuesLeavesOrAborts : Obligations.InitStepQueuesLeavesOrAborts := by
  intro s hp hd
  refine ⟨initStep s, sequencerStep_of_init (enabledStep_eq_init_iff.mpr ⟨hp, hd⟩), ?internal, ?queues, ?aborts⟩
  case internal =>
    intro n hn
    obtain ⟨queued, h⟩ := initStep_nodes s
    rw [h]
    exact writeLeaves_internal queued s hn
  case queues =>
    intro h
    rw [initStep_of_fits h]
    exact ⟨fun n i => writeLeaves_symbol true s, rfl⟩
  case aborts =>
    intro h
    rw [initStep_of_exceeds h]
    exact ⟨fun n i => writeLeaves_symbol false s, rfl⟩

/-- Settles O35: A and B are the selected pair, and `mergeNodes_get` says what the merge writes. -/
theorem mergeStepJoinsTwoLeast : Obligations.MergeStepJoinsTwoLeast := by
  intro s a b hp hd hm hpair hfit
  have hrun : sequencerStep s = .next (applyMerge (s.key a) (s.key b) s) := by
    rw [sequencerStep_of_merge (enabledStep_eq_merge_iff.mpr ⟨hp, hd, hm⟩)]
    exact mergeStep_of_fits hpair.selectPair_eq hfit
  have hget : ∀ n : NodeId, (applyMerge (s.key a) (s.key b) s).nodes[n] =
      if n.val = 257 + s.merges.toNat then internalNode (s.key a) (s.key b)
      else if n.val = a.val ∨ n.val = b.val then dequeue s.nodes[n] else s.nodes[n] := by
    intro n
    rw [applyMerge_nodes, mergeNodes_get]
    rfl
  refine ⟨_, hrun, ?new, ?joined, ?others, ?count, ?more, ?last⟩
  case new =>
    intro n hn
    rw [hget, if_pos hn]
    simp [internalNode, BitVec.ofNat_add]
  case joined =>
    intro n hn hab
    rw [hget, if_neg hn, if_pos (hab.imp (congrArg Fin.val) (congrArg Fin.val))]
    rfl
  case others =>
    intro n hn ha hb
    rw [hget, if_neg hn, if_neg (not_or.mpr ⟨fun e => ha (Fin.ext e), fun e => hb (Fin.ext e)⟩)]
  case count => rw [applyMerge_merges, merges_add_one hm]
  case more =>
    intro h
    rw [applyMerge_of_more _ _ h]
  case last =>
    intro h
    rw [applyMerge_of_last _ _ h]

end Sys2Proof
end

section
/-! What a step does to the node store and to the control registers together (40_host_operations.md R104,
41_tree_build.md R140 to R148), and the invariant of every run as a case split over it. -/

namespace Sys2Proof.Machine

/-! ### The store in a step -/

/-- The ways in which a step can touch the node store (20_memory.md R50) and the control registers with it. -/
inductive StoreStep (s t : State) : Prop
  | stay (regs : t.control = s.control) (nodes : t.nodes = s.nodes)
  | rest (before : s.phase ≠ .building) (after : t.phase ≠ .building) (valid : t.treeValid = s.treeValid)
      (nodes : t.nodes = s.nodes)
  | invalidate (restart : (HostTurn s .cmdBuild ∧ s.phase = .idle) ∨ ResetTurn s) (done : t.initDone = false)
      (valid : t.treeValid = false) (nodes : t.nodes = invalidateStore s.nodes)
  | abort (building : s.phase = .building) (before : s.initDone = false)
      (regs : t.control = { s.control with phase := .idle }) (nodes : t.nodes = writeLeaves false s)
  | init (building : s.phase = .building) (before : s.initDone = false) (total : (freqList s).sum ≤ Config.MAX_TOTAL)
      (regs : t.control = { s.control with initDone := true }) (nodes : t.nodes = writeLeaves true s)
  | merge (building : s.phase = .building) (after : s.initDone = true) (more : s.merges.toNat < 256) (a b : Key)
      (pair : selectPair (queueOf s.nodes) = some (a, b)) (regs : t.control = (applyMerge a b s).control)
      (nodes : t.nodes = mergeNodes s.merges.toNat a b s.nodes)

theorem sequencerStep_storeStep {s t : State} {rest : List Input}
    (h : sequencerStep { s with inputs := rest } = .next t) : StoreStep s t := by
  have hf : freqList { s with inputs := rest } = freqList s := freqList_congr rfl rfl
  rcases sequencerStep_cases h with ⟨-, rfl⟩ | ⟨hp, rfl⟩ | ⟨hp, hd, -, rfl⟩ | ⟨hp, hd, ht, rfl⟩ |
    ⟨hp, hd, hm, a, b, hs, -, rfl⟩
  · exact .stay rfl rfl
  · exact .rest (fun hb => nomatch hb.symm.trans hp) nofun rfl rfl
  · exact .abort hp hd rfl rfl
  · exact .init hp hd (hf ▸ ht) rfl rfl
  · exact .merge hp hd hm a b hs (by rw [applyMerge_control, applyMerge_control]; rfl) (applyMerge_nodes a b _)

theorem exec_storeStep {i : Instr} {s t : State} {rest : List Input} (turn : HostTurn s i)
    (h : exec i { s with inputs := rest } = .next t) : StoreStep s t := by
  rcases exec_cases h with ⟨-, -, v, rfl⟩ | ⟨-, rfl⟩ | ⟨rfl, hp, rfl⟩ | ⟨-, hp, rfl⟩ | ⟨j, v, -, -, rfl⟩ |
    ⟨-, -, rfl⟩ | ⟨-, rfl⟩ | ⟨c, -, rfl⟩ | ⟨a, -, rfl⟩ | ⟨a, -, rfl⟩
  · exact .stay rfl rfl
  · exact .stay rfl rfl
  · exact .invalidate (.inl ⟨turn, hp⟩) rfl rfl rfl
  · exact .rest (fun hb => nomatch hb.symm.trans hp) nofun rfl rfl
  all_goals exact .stay rfl rfl

theorem step_storeStep {s t : State} (h : step s = .next t) : StoreStep s t := by
  cases step_served h with
  | sequencer rest turn run => exact sequencerStep_storeStep run
  | host rest i turn run => exact exec_storeStep turn run
  | consumer rest idx run => exact .stay (run ▸ rfl) (run ▸ rfl)
  | reset rest turn run => exact .invalidate (.inr turn) (run ▸ rfl) (run ▸ rfl) (run ▸ rfl)

/-! ### The store after INIT (41_tree_build.md R144) -/

theorem viewNode_leafNode (queued : Bool) {i : Nat} (hi : i < 257) (w : Word) : viewNode (leafNode queued i w) =
    some { leaf := true, queued := queued, symbol := i, left := 0, right := 0, weight := w.toNat } := by
  simp [viewNode, leafNode, Nat.mod_eq_of_lt (show i < 512 by omega)]

theorem freqList_length (s : State) : (freqList s).length = 257 := by
  simp [freqList]

theorem freqList_getD (s : State) (i : Sym) : (freqList s).getD i.val 0 = (freqValue s i).toNat := by
  simp [freqList, List.getD_eq_getElem?_getD]

/-- The leaf weights are the snapshot of FREQ (20_memory.md R63). -/
theorem leafWeights_writeLeaves (queued : Bool) (s : State) : leafWeights (writeLeaves queued s) = freqList s := by
  apply List.ext_getElem
  · rw [leafWeights_length, freqList_length]
  · intro i h1 h2
    have hi : i < 257 := by rwa [leafWeights_length] at h1
    have hw := leafWeights_getD (writeLeaves queued s) ⟨i, by omega⟩ hi
    rw [writeLeaves_leaf queued s hi] at hw
    rw [List.getElem_eq_getD 0, List.getElem_eq_getD 0, hw]
    exact (freqList_getD s ⟨i, hi⟩).symm

/-- Before any merge the build is the 257 leaves, all in Q (41_tree_build.md R156). -/
theorem expectedNode_zero {f : List Nat} (hf : f.length = 257) (n : Nat) : expectedNode f 0 n =
    if n < 257 then some { leaf := true, queued := true, symbol := n, left := 0, right := 0, weight := f.getD n 0 }
    else none := by
  unfold expectedNode
  by_cases hn : n < 257
  · have hid : n ∈ (leafKeys f).map Key.id := by
      rw [leafKeys_ids, hf]
      exact List.mem_range.mpr hn
    obtain ⟨x, hx, hxn⟩ := List.mem_map.mp hid
    have hq : ((Forest.start f).queue.any fun x => x.id == n) = true :=
      List.any_eq_true.mpr ⟨x, hx, beq_iff_eq.mpr hxn⟩
    simp [hn, Forest.after, hq]
  · simp [hn, Forest.after, Forest.start]

/-- INIT on an invalidated store leaves the store of a build before its first merge. -/
theorem storeIsBuild_init {s : State} (hbefore : ∀ n : NodeId, viewNode s.nodes[n] = none)
    (htotal : (freqList s).sum ≤ Config.MAX_TOTAL) : StoreIsBuild (writeLeaves true s) 0 := by
  unfold StoreIsBuild
  rw [leafWeights_writeLeaves]
  refine ⟨htotal, fun n => ?_⟩
  rw [expectedNode_zero (freqList_length s)]
  by_cases hn : n.val < 257
  · rw [writeLeaves_leaf true s hn, viewNode_leafNode true hn, if_pos hn, ← freqList_getD]
  · rw [writeLeaves_internal true s (Nat.le_of_not_lt hn), if_neg hn, hbefore n]

/-- INIT that aborts leaves no entry in Q (41_tree_build.md R144). -/
theorem idleEntry_abort {s : State} (hbefore : ∀ n : NodeId, viewNode s.nodes[n] = none) (n : NodeId) :
    IdleEntry n (writeLeaves false s)[n] := by
  by_cases hn : n.val < 257
  · rw [writeLeaves_leaf false s hn]
    exact .inr ⟨hn, viewNode_leafNode false hn _⟩
  · rw [writeLeaves_internal false s (Nat.le_of_not_lt hn)]
    exact .inl (hbefore n)

/-! ### The invariant -/

theorem StoreInv.congr {s t : State} (h : StoreInv s) (regs : t.control = s.control) (nodes : t.nodes = s.nodes) :
    StoreInv t := by
  obtain ⟨hp, hd, hm, hv⟩ := State.control_eq_iff.mp regs
  simp only [State.control_phase, State.control_initDone, State.control_merges, State.control_treeValid] at hp hd hm hv
  obtain ⟨h1, h2, h3, h4⟩ := h
  constructor <;> simp only [hp, hd, hm, hv, nodes] <;> assumption

theorem StoreInv.of_invalid {t : State} (hd : t.initDone = false) (hv : t.treeValid = false)
    (hn : ∀ n : NodeId, viewNode t.nodes[n] = none) : StoreInv t where
  beforeInit _ _ := hn
  duringMerges _ h := by simp [hd] at h
  whenValid h := by simp [hv] at h
  withoutTree _ _ n := .inl (hn n)

/-- At rest the store is that of a completed build, or no entry is queued. -/
theorem StoreInv.of_rest {t : State} (hp : t.phase ≠ .building) (hbuilt : t.treeValid = true → StoreIsBuild t.nodes 256)
    (hidle : t.treeValid = false → ∀ n : NodeId, IdleEntry n t.nodes[n]) : StoreInv t where
  beforeInit h _ := absurd h hp
  duringMerges h _ := absurd h hp
  whenValid := hbuilt
  withoutTree _ := hidle

theorem StoreInv.of_merging {t : State} (hp : t.phase = .building) (hd : t.initDone = true) (hv : t.treeValid = false)
    (hbuild : StoreIsBuild t.nodes t.merges.toNat) : StoreInv t where
  beforeInit _ h := by simp [hd] at h
  duringMerges _ _ := hbuild
  whenValid h := by simp [hv] at h
  withoutTree h := absurd hp h

theorem ControlInv.treeValid_of_building {s : State} (h : ControlInv s) (hp : s.phase = .building) :
    s.treeValid = false :=
  Bool.eq_false_iff.mpr fun hv => h.treeValidRests hv hp

/-- A merge leaves the store of the build after one merge more, which the last one completes. -/
theorem storeInv_of_merge {s t : State} {a b : Key} (more : s.merges.toNat < 256)
    (regs : t.control = (applyMerge a b s).control) (hp : s.phase = .building) (hd : s.initDone = true)
    (hv : s.treeValid = false) (hbuild : StoreIsBuild t.nodes (s.merges.toNat + 1)) : StoreInv t := by
  rw [applyMerge_control] at regs
  by_cases hlast : s.merges.toNat + 1 = 256
  · rw [if_pos hlast] at regs
    obtain ⟨hp', -, -, hv'⟩ := State.control_eq_iff.mp regs
    exact .of_rest (by simp [hp']) (fun _ => hlast ▸ hbuild) (by simp [hv'])
  · rw [if_neg hlast] at regs
    obtain ⟨hp', hd', hm', hv'⟩ := State.control_eq_iff.mp regs
    exact .of_merging (hp'.trans hp) (hd'.trans hd) (hv'.trans hv) (by rwa [hm', merges_add_one more])

theorem StoreStep.keeps_storeInv {s t : State} (h : StoreStep s t) (hI : Inv s) : StoreInv t := by
  obtain ⟨hC, hS⟩ := hI
  cases h with
  | stay regs nodes => exact hS.congr regs nodes
  | rest before after valid nodes =>
    refine .of_rest after ?_ ?_ <;> rw [valid, nodes]
    · exact hS.whenValid
    · exact hS.withoutTree before
  | invalidate _ done valid nodes =>
    refine .of_invalid done valid fun n => ?_
    rw [nodes, invalidateStore_get, viewNode_invalidateNode]
  | abort building before regs nodes =>
    obtain ⟨hp, -, -, hv⟩ := State.control_eq_iff.mp regs
    refine .of_rest (by simp [hp]) (fun h => ?_) fun _ => ?_
    · exact absurd (hv.symm.trans h) (by simp [hC.treeValid_of_building building])
    · rw [nodes]
      exact idleEntry_abort (hS.beforeInit building before)
  | init building before total regs nodes =>
    obtain ⟨hp, hd, hm, hv⟩ := State.control_eq_iff.mp regs
    refine .of_merging (hp.trans building) hd (hv.trans (hC.treeValid_of_building building)) ?_
    rw [nodes, hm, State.control_merges, hC.initFirst building before]
    exact storeIsBuild_init (hS.beforeInit building before) total
  | merge building after more a b pair regs nodes =>
    refine storeInv_of_merge more regs building after (hC.treeValid_of_building building) ?_
    rw [nodes]
    exact (storeIsBuild_merge more (hS.duringMerges building after) pair).2

theorem step_keeps_inv {s t : State} (hI : Inv s) (h : step s = .next t) : Inv t :=
  ⟨(step_control h).keeps_controlInv hI.control, (step_storeStep h).keeps_storeInv hI⟩

/-! ### No step stops (41_tree_build.md R146, R150) -/

/-- The moves to come are no part of the invariant. -/
theorem Inv.with_inputs {s : State} (hI : Inv s) (rest : List Input) : Inv { s with inputs := rest } :=
  ⟨(controlInv_iff (s := { s with inputs := rest }) (c := s.control) rfl).mpr ((controlInv_iff rfl).mp hI.control),
    hI.store.congr rfl rfl⟩

/-- A build with a merge due has its two nodes, and their weights fit. -/
theorem mergeStep_of_storeIsBuild {s : State} (more : s.merges.toNat < 256)
    (h : StoreIsBuild s.nodes s.merges.toNat) : ∃ a b, mergeStep s = .next (applyMerge a b s) := by
  have hF := (forestInv_after (leafWeights_length s.nodes) _ more.le).1
  have hids := ((queueOf_perm more.le h).map Key.id).nodup_iff.mpr hF.idsDistinct
  have hlen : 2 ≤ (queueOf s.nodes).length := by
    rw [queueOf_length more.le h]
    omega
  obtain ⟨a, b, hs⟩ := selectPair_exists hids hlen
  exact ⟨a, b, mergeStep_of_fits hs (storeIsBuild_merge more h hs).1⟩

theorem sequencerStep_completes {s : State} (hI : Inv s) : ∃ t, sequencerStep s = .next t := by
  cases he : enabledStep s with
  | none => exact ⟨s, sequencerStep_of_none he⟩
  | some kind =>
    cases kind with
    | clear => exact ⟨_, sequencerStep_of_clear he⟩
    | init => exact ⟨_, sequencerStep_of_init he⟩
    | merge =>
      obtain ⟨hp, hd, more⟩ := enabledStep_eq_merge_iff.mp he
      obtain ⟨a, b, hm⟩ := mergeStep_of_storeIsBuild more (hI.store.duringMerges hp hd)
      exact ⟨_, (sequencerStep_of_merge he).trans hm⟩

theorem step_completes {s : State} (hI : Inv s) : ∃ t, step s = .next t := by
  have hp := hI.control.phaseLegal
  cases hi : s.inputs with
  | nil =>
    rw [step_of_inputs_nil hp hi]
    exact sequencerStep_completes hI
  | cons i rest =>
    cases i with
    | host t =>
      rw [step_of_host hp hi]
      exact exec_next _ _
    | sequencer =>
      rw [step_of_sequencer hp hi]
      exact sequencerStep_completes (hI.with_inputs rest)
    | consumer idx => exact ⟨_, step_of_consumer hp hi⟩
    | reset => exact ⟨_, step_of_reset hi⟩

end Sys2Proof.Machine
end

section
namespace Sys2Proof
open Machine

/-- Settles O40: by the ways in which a step touches the control registers and the node store. -/
theorem stepKeepsInvariant : Obligations.StepKeepsInvariant := fun _ _ => step_keeps_inv

/-- Settles O41: only a MERGE can fault, and under the invariant its two nodes exist and fit. -/
theorem invariantStatesNeverStop : Obligations.InvariantStatesNeverStop := fun _ => step_completes

end Sys2Proof
end

section
/-! Runs of the machine (41_tree_build.md R153, R156, R157): what a build under way keeps over every step of a run with
no further BUILD and no reset, and how many steps a build takes when the sequencer has every turn. -/

namespace Sys2Proof.Machine

/-! ### Runs -/

theorem runFor_succ {s t : State} (h : step s = .next t) (k : Nat) : runFor (k + 1) s = runFor k t := by
  have hc : Sys2Proof.core.step s = .next t := h
  simp only [runFor, Host.Core.run, hc]
  rfl

/-- A run of one step and more starts with a step that completes. -/
theorem step_of_runFor_succ {s t : State} {k : Nat} (h : runFor (k + 1) s = .next t) :
    ∃ u, step s = .next u ∧ runFor k u = .next t := by
  cases hs : step s with
  | next u => exact ⟨u, rfl, runFor_succ hs k ▸ h⟩
  | fault r =>
    have hc : Sys2Proof.core.step s = .fault r := hs
    simp only [runFor, Host.Core.run, hc] at h
    cases h
  | refused r =>
    have hc : Sys2Proof.core.step s = .refused r := hs
    simp only [runFor, Host.Core.run, hc] at h
    cases h

theorem runFor_snoc {s u t : State} {k : Nat} (hrun : runFor k s = .next u) (hstep : step u = .next t) :
    runFor (k + 1) s = .next t := by
  induction k generalizing s with
  | zero =>
    obtain rfl := Host.Outcome.next.inj hrun
    exact runFor_succ hstep 0
  | succ k ih =>
    obtain ⟨v, hv, hrest⟩ := step_of_runFor_succ hrun
    rw [runFor_succ hv]
    exact ih hrest

/-! ### The moves still to come -/

theorem applyMerge_inputs (a b : Key) (s : State) : (applyMerge a b s).inputs = s.inputs := by
  unfold applyMerge
  split <;> rfl

theorem sequencerStep_inputs {s t : State} (h : sequencerStep s = .next t) : t.inputs = s.inputs := by
  rcases sequencerStep_cases h with ⟨-, rfl⟩ | ⟨-, rfl⟩ | ⟨-, -, -, rfl⟩ | ⟨-, -, -, rfl⟩ | ⟨-, -, -, a, b, -, -, rfl⟩
  · rfl
  · rfl
  · rfl
  · rfl
  · exact applyMerge_inputs a b s

/-- A step takes the first move and leaves the others (20_memory.md R60). -/
theorem step_inputs {s t : State} (h : step s = .next t) : t.inputs = s.inputs.tail := by
  rcases step_cases h with ⟨-, hi, hr⟩ | ⟨-, rest, hi, hr⟩ | ⟨-, w, rest, hi, hr⟩ | ⟨-, idx, rest, hi, rfl⟩ |
    ⟨rest, hi, rfl⟩ <;> rw [hi]
  · exact (sequencerStep_inputs hr).trans hi
  · exact sequencerStep_inputs hr
  · exact (exec_environment hr).1
  · rfl
  · rfl

theorem NoRestart.walkAllowed {s : State} (h : NoRestart s.inputs) (i : Input) (rest : List Input)
    (hi : s.inputs = i :: rest) : WalkAllowed i :=
  h i (hi ▸ List.mem_cons_self)

theorem NoRestart.step {s t : State} (h : NoRestart s.inputs) (hs : step s = .next t) : NoRestart t.inputs :=
  fun i hi => h i (List.mem_of_mem_tail (step_inputs hs ▸ hi))

/-! ### The table of a build (20_memory.md R63) -/

/-- FREQ is frozen during a build: a write is rejected and no CLEAR step is due (20_memory.md R63). -/
theorem step_freqList_of_building {s t : State} (hp : s.phase = .building) (hr : ¬ ResetTurn s) (h : step s = .next t) :
    freqList t = freqList s := by
  have hvalue : ∀ i, freqValue t i = freqValue s i := by
    intro i
    by_contra hne
    rcases step_freqValue_change h hne with ⟨hidle, -⟩ | ⟨hclear, -⟩ | hreset
    · cases hp.symm.trans hidle
    · cases hp.symm.trans hclear
    · exact hr hreset
  unfold freqList
  exact List.map_congr_left fun i _ => by rw [hvalue i]

/-- A merge writes no leaf's weight. -/
theorem leafWeights_mergeNodes (k : Nat) (a b : Key) (nodes : Vector Node 513) :
    leafWeights (mergeNodes k a b nodes) = leafWeights nodes := by
  apply leafWeights_congr
  intro n hn
  rw [mergeNodes_get, if_neg (by omega)]
  split <;> rfl

theorem buildTable_of_done {s : State} (h : s.initDone = true) : buildTable s = leafWeights s.nodes := if_pos h

theorem buildTable_of_not_done {s : State} (h : s.initDone = false) : buildTable s = freqList s :=
  if_neg (by simp [h])

/-- A run whose last build is one of the table `f`: while it is under way `f` is its table, and once it is complete the
store holds the weights `f`. -/
structure BuildsTable (f : List Nat) (s : State) : Prop where
  inv : Inv s
  noRestart : NoRestart s.inputs
  underWay : s.phase = .building → buildTable s = f
  complete : s.treeValid = true → leafWeights s.nodes = f

theorem BuildsTable.step {f : List Nat} {s t : State} (h : BuildsTable f s) (hs : step s = .next t) : BuildsTable f t := by
  obtain ⟨hI, hno, hunder, hcomplete⟩ := h
  have hreset : ¬ ResetTurn s := not_resetTurn_of_walkAllowed hno.walkAllowed
  have hI' := step_keeps_inv hI hs
  suffices (t.phase = .building → buildTable t = f) ∧ (t.treeValid = true → leafWeights t.nodes = f) from
    ⟨hI', hno.step hs, this.1, this.2⟩
  cases step_storeStep hs with
  | stay regs nodes =>
    obtain ⟨hp, hd, -, hv⟩ := State.control_eq_iff.mp regs
    rw [State.control_phase] at hp
    rw [State.control_treeValid] at hv
    rw [hp, hv, nodes]
    refine ⟨fun hb => ?_, hcomplete⟩
    rw [← hunder hb, buildTable, buildTable, nodes, hd, step_freqList_of_building hb hreset hs]
    rfl
  | rest before after valid nodes =>
    rw [valid, nodes]
    exact ⟨fun hb => absurd hb after, hcomplete⟩
  | invalidate restart =>
    rcases restart with ⟨turn, -⟩ | turn
    · exact absurd turn (not_hostTurn_cmdBuild_of_walkAllowed hno.walkAllowed)
    · exact absurd turn hreset
  | abort building before regs nodes =>
    obtain ⟨hp, -, -, hv⟩ := State.control_eq_iff.mp regs
    rw [hp, hv, State.control_treeValid, hI.control.treeValid_of_building building]
    exact ⟨nofun, nofun⟩
  | init building before total regs nodes =>
    obtain ⟨hp, hd, -, -⟩ := State.control_eq_iff.mp regs
    have hb : t.phase = .building := hp.trans building
    rw [hI'.control.treeValid_of_building hb, buildTable_of_done hd, nodes, leafWeights_writeLeaves]
    exact ⟨fun _ => buildTable_of_not_done before ▸ hunder building, nofun⟩
  | merge building after more a b pair regs nodes =>
    have hw : leafWeights t.nodes = f := by
      rw [nodes, leafWeights_mergeNodes, ← buildTable_of_done after]
      exact hunder building
    refine ⟨fun hb => ?_, fun _ => hw⟩
    rw [applyMerge_control] at regs
    split at regs
    · cases hb.symm.trans (congrArg Control.phase regs)
    · rw [buildTable_of_done ((congrArg Control.initDone regs).trans after), hw]

theorem BuildsTable.runFor {f : List Nat} {k : Nat} {s t : State} (h : BuildsTable f s) (hr : runFor k s = .next t) :
    BuildsTable f t := by
  induction k generalizing s with
  | zero =>
    obtain rfl := Host.Outcome.next.inj hr
    exact h
  | succ k ih =>
    obtain ⟨u, hu, hrest⟩ := step_of_runFor_succ hr
    exact ih (h.step hu) hrest

/-- A build under way is one of its table. -/
theorem Inv.buildsTable {s : State} (hI : Inv s) (hp : s.phase = .building) (hno : NoRestart s.inputs) :
    BuildsTable (buildTable s) s where
  inv := hI
  noRestart := hno
  underWay _ := rfl
  complete hv := absurd hp (hI.control.treeValidRests hv)

/-- A completed build's store is the pure build of the table (41_tree_build.md R156). -/
theorem BuildsTable.view_eq {f : List Nat} {s : State} (h : BuildsTable f s) (hv : s.treeValid = true) (n : NodeId) :
    viewNode s.nodes[n] = expectedNode f 256 n.val := by
  rw [← h.complete hv]
  exact (h.inv.store.whenValid hv).2 n

/-! ### How many steps a build takes (41_tree_build.md R157) -/

/-- A build left to the sequencer, the `k`-th merge due. -/
structure Merging (k : Nat) (s : State) : Prop where
  inv : Inv s
  noMoves : s.inputs = []
  building : s.phase = .building
  done : s.initDone = true
  count : s.merges.toNat = k

theorem Merging.step_eq {k : Nat} {s : State} (h : Merging k s) : ∃ a b, step s = .next (applyMerge a b s) := by
  obtain ⟨hI, hi, hp, hd, -⟩ := h
  have more := hI.control.mergeNext hd
  obtain ⟨a, b, hm⟩ := mergeStep_of_storeIsBuild more (hI.store.duringMerges hp hd)
  refine ⟨a, b, ?_⟩
  rw [step_of_inputs_nil hI.control.phaseLegal hi, sequencerStep_of_merge (enabledStep_eq_merge_iff.mpr ⟨hp, hd, more⟩), hm]

theorem Merging.next {k : Nat} {s : State} (h : Merging k s) (hk : k < 255) :
    ∃ t, step s = .next t ∧ Merging (k + 1) t := by
  obtain ⟨a, b, hs⟩ := h.step_eq
  have hcount := h.count
  have ht := applyMerge_of_more a b (s := s) (by omega)
  refine ⟨_, hs, step_keeps_inv h.inv hs, ?_, ?_, ?_, ?_⟩ <;> rw [ht]
  · exact h.noMoves
  · exact h.building
  · exact h.done
  · rw [← hcount]
    exact merges_add_one (by omega)

theorem Merging.last {s : State} (h : Merging 255 s) :
    ∃ t, step s = .next t ∧ t.phase = .idle ∧ t.treeValid = true ∧ t.merges.toNat = 256 := by
  obtain ⟨a, b, hs⟩ := h.step_eq
  have ht := applyMerge_of_last a b h.count
  refine ⟨_, hs, ?_, ?_, ?_⟩ <;> rw [ht]
  exact (merges_add_one (by simp [h.count])).trans (by rw [h.count])

theorem Merging.runFor {k : Nat} {s : State} (h : Merging k s) (j : Nat) (hj : k + j ≤ 255) :
    ∃ t, runFor j s = .next t ∧ Merging (k + j) t := by
  induction j with
  | zero => exact ⟨s, rfl, h⟩
  | succ j ih =>
    obtain ⟨u, hu, hm⟩ := ih (by omega)
    obtain ⟨t, ht, hm'⟩ := hm.next (by omega)
    exact ⟨t, runFor_snoc hu ht, hm'⟩

section
variable {s : State} (hI : Inv s) (hp : s.phase = .building) (hd : s.initDone = false) (hi : s.inputs = [])
include hI hp hd hi

theorem step_of_init_due : step s = .next (initStep s) := by
  rw [step_of_inputs_nil hI.control.phaseLegal hi, sequencerStep_of_init (enabledStep_eq_init_iff.mpr ⟨hp, hd⟩)]

/-- INIT that fits is followed by the first merge. -/
theorem merging_zero_after_init (hfits : (freqList s).sum ≤ Config.MAX_TOTAL) : Merging 0 (initStep s) := by
  have hI' := step_keeps_inv hI (step_of_init_due hI hp hd hi)
  rw [initStep_of_fits hfits] at hI' ⊢
  exact ⟨hI', hi, hp, rfl, by simp [hI.control.initFirst hp hd]⟩

end

end Sys2Proof.Machine
end

section
namespace Sys2Proof
open Machine

/-- Settles O43: INIT, 255 merges that leave a merge due, and the last one; or INIT alone. -/
theorem buildEndsAfter257Steps : Obligations.BuildEndsAfter257Steps := by
  intro s hI hp hd hi
  have hinit := step_of_init_due hI hp hd hi
  constructor
  · intro hfits
    have hmerging := merging_zero_after_init hI hp hd hi hfits
    refine ⟨fun k hk => ?_, ?_⟩
    · cases k with
      | zero => exact ⟨s, rfl, hp⟩
      | succ k =>
        obtain ⟨u, hu, hm⟩ := hmerging.runFor k (by omega)
        exact ⟨u, (runFor_succ hinit k).trans hu, hm.building⟩
    · obtain ⟨u, hu, hm⟩ := hmerging.runFor 255 (by omega)
      obtain ⟨t, ht, hend⟩ := hm.last
      exact ⟨t, (runFor_succ hinit 256).trans (runFor_snoc hu ht), hend⟩
  · intro hexceeds
    refine ⟨initStep s, runFor_succ hinit 0, ?_⟩
    rw [initStep_of_exceeds hexceeds]
    exact ⟨rfl, rfl, hI.control.treeValid_of_building hp, by simp [hI.control.initFirst hp hd]⟩

/-- Settles O44: the run builds its table from the first step to the last. -/
theorem completedBuildIsPureBuildOfTable : Obligations.CompletedBuildIsPureBuildOfTable :=
  fun _ _ _ hI hp hno hr hv => ((hI.buildsTable hp hno).runFor hr).view_eq hv

/-- Settles O45: both stores are the pure build of the one table, and the node words depend on the views alone. -/
theorem buildDependsOnTableAlone : Obligations.BuildDependsOnTableAlone := by
  intro s s' t t' k k' hI hI' hp hp' hno hno' htable hr hr' hv hv' n
  have h := completedBuildIsPureBuildOfTable s t k hI hp hno hr hv n
  have h' := completedBuildIsPureBuildOfTable s' t' k' hI' hp' hno' hr' hv' n
  exact nodeWords_of_view (h.trans (htable ▸ h'.symm))

end Sys2Proof
end

section
/-! What holds of every stage of the pure build beyond its sizes (41_tree_build.md R151, R152, R154): which nodes are
children, in what order the internal nodes are made, and that sums over Q are sums over the leaves. -/

namespace Sys2Proof.Machine

/-! ### Induction over the merges -/

/-- With fewer than two nodes in Q there is no merge. -/
theorem Forest.merge_eq_self {F : Forest} (h : selectPair F.queue = none) : F.merge = F := by
  simp [Forest.merge, h]

theorem two_le_length_of_selectPair {q : List Key} {a b : Key} (hd : (q.map Key.id).Nodup)
    (hs : selectPair q = some (a, b)) : 2 ≤ q.length := by
  rw [(selectPair_perm hd hs).length_eq]
  simp

/-- What holds of the start and is kept by every merge of two nodes holds after any number of rounds. -/
theorem Forest.after_induction {f : List Nat} {P : Forest → Prop} (hf : f.length = 257) (start : P (Forest.start f))
    (merge : ∀ F a b, ForestInv f F → selectPair F.queue = some (a, b) → P F → P F.merge) (k : Nat) :
    P (Forest.after f k) := by
  suffices ForestInv f (Forest.after f k) ∧ P (Forest.after f k) from this.2
  induction k with
  | zero => exact ⟨forestInv_start hf, start⟩
  | succ k ih =>
    obtain ⟨hF, hP⟩ := ih
    rw [Forest.after]
    cases hs : selectPair (Forest.after f k).queue with
    | none =>
      rw [Forest.merge_eq_self hs]
      exact ⟨hF, hP⟩
    | some p =>
      exact ⟨forestInv_merge hF (two_le_length_of_selectPair hF.idsDistinct hs), merge _ p.1 p.2 hF hs hP⟩

/-! ### Children (41_tree_build.md R152) -/

/-- The ids of the children, in the order of the merges. -/
def Forest.childIds (F : Forest) : List Nat := F.made.flatMap fun m => [m.left, m.right]

/-- Each node made so far is in Q or is a child once. -/
theorem childIds_append_queue_perm {f : List Nat} (hf : f.length = 257) (k : Nat) :
    ((Forest.after f k).childIds ++ (Forest.after f k).queue.map Key.id).Perm
      (List.range (257 + (Forest.after f k).made.length)) := by
  refine Forest.after_induction
    (P := fun F => (F.childIds ++ F.queue.map Key.id).Perm (List.range (257 + F.made.length))) hf ?_
    (fun F a b hF hs ih => ?_) k
  · simp [Forest.start, Forest.childIds, leafKeys_ids, hf]
  · have hq := (selectPair_perm hF.idsDistinct hs).map Key.id
    have hnew := ((hq.append_left F.childIds).symm.trans ih).append_right [257 + F.made.length]
    simpa [Forest.merge_eq hs, Forest.childIds, List.range_succ, ← Nat.add_assoc] using hnew

/-! ### The order of the merges (41_tree_build.md R154) -/

/-- The internal nodes are made in order of weight, since no two nodes of Q together weigh less than any of them. -/
structure MergeOrder (F : Forest) : Prop where
  ascending : F.made.Pairwise fun m m' => m.weight ≤ m'.weight
  belowPairs : ∀ m ∈ F.made, ∀ x ∈ F.queue, ∀ y ∈ F.queue, x.id ≠ y.id → m.weight ≤ x.weight + y.weight

theorem Key.weight_le_of_lt {a b : Key} (h : a.lt b = true) : a.weight ≤ b.weight := by
  rw [Key.lt_iff] at h
  omega

/-- A is before B. -/
theorem selectPair_lt {q : List Key} {a b : Key} (hs : selectPair q = some (a, b)) : a.lt b = true := by
  obtain ⟨-, hb, hne, hleast, -⟩ := selectPair_spec hs
  exact hleast b hb fun e => hne (by rw [e])

/-- Two nodes of Q after a merge weigh at least what A and B weigh together. -/
theorem selectPair_weight_le {q : List Key} {a b x y : Key} (hs : selectPair q = some (a, b)) {n : Nat}
    (hx : x ∈ withoutId b.id (withoutId a.id q) ++ [{ weight := a.weight + b.weight, id := n }])
    (hy : y ∈ withoutId b.id (withoutId a.id q) ++ [{ weight := a.weight + b.weight, id := n }]) (hne : x.id ≠ y.id) :
    a.weight + b.weight ≤ x.weight + y.weight := by
  obtain ⟨-, -, -, -, hleast⟩ := selectPair_spec hs
  have hab := Key.weight_le_of_lt (selectPair_lt hs)
  have hrest : ∀ z ∈ withoutId b.id (withoutId a.id q), b.weight ≤ z.weight := by
    intro z hz
    rw [mem_withoutId, mem_withoutId] at hz
    obtain ⟨⟨hzq, hza⟩, hzb⟩ := hz
    exact Key.weight_le_of_lt (hleast z hzq hza fun e => hzb (by rw [e]))
  rw [List.mem_append, List.mem_singleton] at hx hy
  rcases hx with hx | rfl
  · rcases hy with hy | rfl
    · have := hrest x hx
      have := hrest y hy
      omega
    · exact Nat.le_add_left _ _
  · exact Nat.le_add_right _ _

theorem mergeOrder_after {f : List Nat} (hf : f.length = 257) (k : Nat) : MergeOrder (Forest.after f k) := by
  refine Forest.after_induction hf ⟨by simp [Forest.start], by simp [Forest.start]⟩ (fun F a b hF hs ih => ?_) k
  obtain ⟨ha, hb, hne, -, -⟩ := selectPair_spec hs
  have hnew : ∀ m ∈ F.made, m.weight ≤ a.weight + b.weight := fun m hm => ih.belowPairs m hm a ha b hb hne.symm
  rw [Forest.merge_eq hs]
  constructor
  · refine List.pairwise_append.mpr ⟨ih.ascending, List.pairwise_singleton _ _, fun m hm m' hm' => ?_⟩
    obtain rfl := List.mem_singleton.mp hm'
    exact hnew m hm
  · intro m hm x hx y hy hxy
    refine le_trans ?_ (selectPair_weight_le hs hx hy hxy)
    rcases List.mem_append.mp hm with hm | hm
    · exact hnew m hm
    · obtain rfl := List.mem_singleton.mp hm
      exact le_rfl

/-! ### What an internal node joins (41_tree_build.md R147) -/

/-- The key of node `n` in a build of `f` (00_scope.md R9). -/
def Forest.keyOf (f : List Nat) (F : Forest) (n : Nat) : Key := { weight := F.weightOf f n, id := n }

theorem Forest.weightOf_leaf (f : List Nat) (F : Forest) {n : Nat} (h : n < 257) : F.weightOf f n = f.getD n 0 := if_pos h

theorem Forest.weightOf_internal (f : List Nat) {F : Forest} {j : Nat} {m : Merged} (h : F.made[j]? = some m) :
    F.weightOf f (257 + j) = m.weight := by
  simp [Forest.weightOf, h]

theorem ForestInv.keyOf_eq {f : List Nat} {F : Forest} (hF : ForestInv f F) {x : Key} (hx : x ∈ F.queue) :
    F.keyOf f x.id = x := by
  rw [Forest.keyOf, ← hF.weights x hx]

/-- An internal node weighs what its children weigh together, and its left child has the lesser key. -/
def Forest.Joins (f : List Nat) (F : Forest) (m : Merged) : Prop :=
  m.weight = F.weightOf f m.left + F.weightOf f m.right ∧ (F.keyOf f m.left).lt (F.keyOf f m.right) = true

theorem ForestInv.mem_children {f : List Nat} {F : Forest} (hF : ForestInv f F) {m : Merged} (hm : m ∈ F.made) :
    m.left < 257 + F.made.length ∧ m.right < 257 + F.made.length := by
  obtain ⟨j, hj⟩ := List.mem_iff_getElem?.mp hm
  have hlt := (List.getElem?_eq_some_iff.mp hj).1
  have := hF.children j m hj
  omega

/-- Later merges leave what a node joins. -/
theorem Forest.joins_append {f : List Nat} {F : Forest} {m m' : Merged} {q : List Key}
    (hl : m.left < 257 + F.made.length) (hr : m.right < 257 + F.made.length) :
    Forest.Joins f { made := F.made ++ [m'], queue := q } m ↔ F.Joins f m := by
  simp only [Forest.Joins, Forest.keyOf, Forest.weightOf_append hl, Forest.weightOf_append hr]

theorem joins_after {f : List Nat} (hf : f.length = 257) (k : Nat) :
    ∀ m ∈ (Forest.after f k).made, (Forest.after f k).Joins f m := by
  refine Forest.after_induction (P := fun F => ∀ m ∈ F.made, F.Joins f m) hf (by simp [Forest.start])
    (fun F a b hF hs ih => ?_) k
  obtain ⟨ha, hb, -, -, -⟩ := selectPair_spec hs
  rw [Forest.merge_eq hs]
  intro m hm
  rcases List.mem_append.mp hm with hm | hm
  · obtain ⟨hl, hr⟩ := hF.mem_children hm
    exact (Forest.joins_append hl hr).mpr (ih m hm)
  · obtain rfl := List.mem_singleton.mp hm
    refine (Forest.joins_append (hF.idsMade a ha) (hF.idsMade b hb)).mpr ⟨?_, ?_⟩
    · rw [← hF.weights a ha, ← hF.weights b hb]
    · rw [hF.keyOf_eq ha, hF.keyOf_eq hb]
      exact selectPair_lt hs

/-! ### Sums over Q -/

/-- A measure of nodes that adds up at every internal node, up to that node's own share. -/
def Additive {M : Type} [AddCommMonoid M] (μ share : Nat → M) (F : Forest) : Prop :=
  ∀ (j : Nat) (m : Merged), F.made[j]? = some m → μ (257 + j) = μ m.left + μ m.right + share j

/-- Such a measure adds up over Q to that of the leaves and the shares of the nodes made. -/
theorem Additive.sum_queue {M : Type} [AddCommMonoid M] {f : List Nat} (hf : f.length = 257) {μ share : Nat → M}
    {k : Nat} (h : Additive μ share (Forest.after f k)) :
    (((Forest.after f k).queue.map Key.id).map μ).sum =
      ((List.range 257).map μ).sum + ((List.range (Forest.after f k).made.length).map share).sum := by
  revert h
  refine Forest.after_induction
    (P := fun F => Additive μ share F → ((F.queue.map Key.id).map μ).sum =
      ((List.range 257).map μ).sum + ((List.range F.made.length).map share).sum) hf ?_ (fun F a b hF hs ih h => ?_) k
  · intro _
    rw [Forest.start, leafKeys_ids, hf]
    exact (add_zero _).symm
  · have hq := (((selectPair_perm hF.idsDistinct hs).map Key.id).map μ).sum_eq
    rw [Forest.merge_eq hs] at h ⊢
    have hold : Additive μ share F := fun j m hm =>
      h j m ((List.getElem?_append_left (List.getElem?_eq_some_iff.mp hm).1).trans hm)
    have hnew := h F.made.length _ List.getElem?_concat_length
    rw [ih hold] at hq
    simp only [List.map_cons, List.sum_cons] at hq
    simp only [List.map_append, List.map_cons, List.map_nil, List.sum_append, List.sum_cons, List.sum_nil,
      List.length_append, List.length_cons, List.length_nil, List.range_succ (n := F.made.length), hnew]
    rw [← add_assoc ((List.range 257).map μ).sum, hq]
    abel

/-- Of a completed build the root alone is in Q (41_tree_build.md R148, R149). -/
theorem completed_queue_ids {f : List Nat} (hf : f.length = 257) : (Forest.after f 256).queue.map Key.id = [512] := by
  obtain ⟨hF, hm⟩ := forestInv_after hf 256 (Nat.le_refl 256)
  have hroot := newest_mem_queue hf (k := 255) (by decide)
  have hlen : ((Forest.after f 256).queue.map Key.id).length = 1 := by
    have := hF.size
    rw [List.length_map]
    omega
  obtain ⟨i, hi⟩ := List.length_eq_one_iff.mp hlen
  rw [hi, List.mem_singleton] at hroot
  rw [hi, ← hroot]

end Sys2Proof.Machine
end

section
/-! The entries of a store that is a build's: what each holds by the pure build, and in which order the internal nodes
are made (41_tree_build.md R154, R156). -/

namespace Sys2Proof.Machine

theorem StoreIsBuild.weight_eq {nodes : Vector Node 513} {k : Nat} (h : StoreIsBuild nodes k) {n : NodeId}
    (hv : nodes[n].valid = true) :
    nodes[n].weight.toNat = (Forest.after (leafWeights nodes) k).weightOf (leafWeights nodes) n.val :=
  (expectedNode_fields ((h.2 n).symm.trans (if_pos hv))).1

theorem StoreIsBuild.valid_of_lt {nodes : Vector Node 513} {k : Nat} (hk : k ≤ 256) (h : StoreIsBuild nodes k) {n : NodeId}
    (hn : n.val < 257 + k) : nodes[n].valid = true := by
  obtain ⟨v, hv⟩ := expectedNode_isSome (leafWeights_length nodes) hk hn
  exact (viewNode_some ((h.2 n).trans hv)).1

theorem StoreIsBuild.leaf_of_lt {nodes : Vector Node 513} {k : Nat} (h : StoreIsBuild nodes k) {n : NodeId}
    (hn : n.val < 257) : nodes[n].leaf = true := by
  have hview := (h.2 n).trans (if_pos hn)
  exact (congrArg NodeView.leaf (viewNode_some hview).2).symm

/-- A valid internal entry holds the node that one of the merges made. -/
theorem StoreIsBuild.made_of_valid {nodes : Vector Node 513} {k : Nat} (h : StoreIsBuild nodes k) {n : NodeId}
    (hn : 257 ≤ n.val) (hv : nodes[n].valid = true) :
    (Forest.after (leafWeights nodes) k).made[n.val - 257]? =
      some { weight := nodes[n].weight.toNat, left := nodes[n].left.toNat, right := nodes[n].right.toNat } := by
  have hview := (h.2 n).symm.trans (if_pos hv)
  unfold expectedNode at hview
  rw [if_neg (Nat.not_lt.mpr hn)] at hview
  cases hm : (Forest.after (leafWeights nodes) k).made[n.val - 257]? with
  | none => simp [hm] at hview
  | some m =>
    simp only [hm, Option.some.injEq, NodeView.mk.injEq] at hview
    obtain ⟨-, -, -, hl, hr, hw⟩ := hview
    rw [← hl, ← hr, ← hw]

/-- Under the invariant the store is that of a build, or holds no more than leaves outside any tree. -/
theorem Inv.build_or_idle {s : State} (hI : Inv s) :
    (∃ k, k ≤ 256 ∧ StoreIsBuild s.nodes k) ∨ ∀ n : NodeId, IdleEntry n s.nodes[n] := by
  by_cases hp : s.phase = .building
  · cases hd : s.initDone with
    | false => exact .inr fun n => .inl (hI.store.beforeInit hp hd n)
    | true => exact .inl ⟨_, hI.control.mergesBound, hI.store.duringMerges hp hd⟩
  · cases hv : s.treeValid with
    | false => exact .inr (hI.store.withoutTree hp hv)
    | true => exact .inl ⟨256, le_rfl, hI.store.whenValid hv⟩

theorem IdleEntry.leaf_of_valid {n : NodeId} {e : Node} (h : IdleEntry n e) (hv : e.valid = true) :
    n.val < 257 ∧ e.leaf = true := by
  rcases h with h | ⟨hn, h⟩
  · simp [viewNode, hv] at h
  · exact ⟨hn, (congrArg NodeView.leaf (viewNode_some h).2).symm⟩

/-- Internal nodes are made in order of weight. -/
theorem StoreIsBuild.weight_le {nodes : Vector Node 513} {k : Nat} (h : StoreIsBuild nodes k) {m n : NodeId}
    (hm : 257 ≤ m.val) (hmn : m.val < n.val) (hvm : nodes[m].valid = true) (hvn : nodes[n].valid = true) :
    nodes[m].weight.toNat ≤ nodes[n].weight.toNat := by
  obtain ⟨hlm, hgm⟩ := List.getElem?_eq_some_iff.mp (h.made_of_valid hm hvm)
  obtain ⟨hln, hgn⟩ := List.getElem?_eq_some_iff.mp (h.made_of_valid (hm.trans hmn.le) hvn)
  have hle := List.pairwise_iff_getElem.mp (mergeOrder_after (leafWeights_length nodes) k).ascending _ _ hlm hln
    (Nat.sub_lt_sub_right hm hmn)
  rwa [hgm, hgn] at hle

theorem StoreIsBuild.internal_of_not_leaf {nodes : Vector Node 513} {k : Nat} (h : StoreIsBuild nodes k) {n : NodeId}
    (hleaf : nodes[n].leaf = false) : 257 ≤ n.val :=
  Nat.le_of_not_lt fun hn => nomatch hleaf.symm.trans (h.leaf_of_lt hn)

/-- The left child of an internal node has the lesser key. -/
theorem StoreIsBuild.keyBefore {s : State} {k : Nat} (hk : k ≤ 256) (h : StoreIsBuild s.nodes k) {n l r : NodeId}
    (hv : s.nodes[n].valid = true) (hleaf : s.nodes[n].leaf = false) (hl : s.nodes[n].left.toNat = l.val)
    (hr : s.nodes[n].right.toNat = r.val) : KeyBefore s l r := by
  have hf := leafWeights_length s.nodes
  obtain ⟨hF, hlen⟩ := forestInv_after hf k hk
  have hmem := List.mem_of_getElem? (h.made_of_valid (h.internal_of_not_leaf hleaf) hv)
  have hlt := hF.mem_children hmem
  have hjoin := (joins_after hf k _ hmem).2
  rw [hl, hr] at hlt hjoin
  rw [hlen] at hlt
  rw [Key.lt_iff] at hjoin
  unfold KeyBefore
  rwa [h.weight_eq (h.valid_of_lt hk hlt.1), h.weight_eq (h.valid_of_lt hk hlt.2)]

end Sys2Proof.Machine
end

section
namespace Sys2Proof
open Machine

/-- Settles O57: in a build by the order of the merges, and outside one no valid entry is internal. -/
theorem mergesGoUpInWeight : Obligations.MergesGoUpInWeight := by
  intro s hI
  rcases hI.build_or_idle with ⟨k, hk, h⟩ | hidle
  · exact ⟨fun m n => h.weight_le, fun n l r => h.keyBefore hk⟩
  · refine ⟨fun m n hm _ hv _ => ?_, fun n l r hv hleaf => ?_⟩
    · exact absurd ((hidle m).leaf_of_valid hv).1 (Nat.not_lt.mpr hm)
    · cases hleaf.symm.trans ((hidle n).leaf_of_valid hv).2

end Sys2Proof
end

section
/-! What a consumer reads of a completed build, and the tree it walks (41_tree_build.md R149 to R155, 42_tree_output.md
R183, R184): the pure build read as a node store, and its trees by induction over the nodes, children first. -/

namespace Sys2Proof.Machine

/-! ### Reading a node (42_tree_output.md R183) -/

/-- A view as a HuffmanNode. -/
def NodeView.toHuffNode (v : NodeView) : HuffNode :=
  if v.leaf then .leaf v.symbol v.weight else .internal v.weight v.left v.right

theorem nodeWeight_valid {e : Node} (h : e.valid = true) : nodeWeight e = e.weight := if_pos h

/-- A consumer decodes a node word to what the entry shows. -/
theorem decodeNodeWord_of_view (e : Node) :
    decodeNodeWord (nodeLink e) (nodeWeight e) = (viewNode e).map NodeView.toHuffNode := by
  cases hv : e.valid with
  | false =>
    rw [nodeLink_invalid hv]
    simp [decodeNodeWord, viewNode, hv]
  | true =>
    obtain ⟨hvalid, hleaf, -⟩ := packNode_bits e
    obtain ⟨hsymbol, hright, hleft⟩ := packNode_fields e
    rw [nodeLink_valid hv, nodeWeight_valid hv]
    simp only [decodeNodeWord, hvalid, hleaf, hsymbol, hright, hleft, viewNode, hv]
    cases e.leaf <;> rfl

theorem portNode_ofNat (n : NodeId) : portNode (BitVec.ofNat 10 n.val) = some n := by
  have hn : (BitVec.ofNat 10 n.val).toNat = n.val := by
    rw [BitVec.toNat_ofNat]
    omega
  simp [portNode, hn]

theorem readNode_of_lt (s : State) (n : NodeId) : readNode s n.val = (viewNode s.nodes[n]).map NodeView.toHuffNode := by
  rw [readNode, if_pos (by omega), portLink, portWeight, portNode_ofNat]
  exact decodeNodeWord_of_view s.nodes[n]

theorem readNode_of_ge (s : State) {n : Nat} (hn : 513 ≤ n) : readNode s n = none := by
  unfold readNode
  split
  · next h =>
    have hport : portNode (BitVec.ofNat 10 n) = none := by
      rw [portNode, dif_neg]
      rw [BitVec.toNat_ofNat]
      omega
    rw [portLink, portWeight, hport]
    exact decodeNodeWord_of_view Node.blank
  · rfl

/-- Node `n` of a build of `f`, as a consumer reads it. -/
def Forest.read (f : List Nat) (F : Forest) (n : Nat) : Option HuffNode :=
  if n < 257 then some (.leaf n (f.getD n 0))
  else F.made[n - 257]?.map fun m => .internal m.weight m.left m.right

theorem Forest.read_leaf (f : List Nat) (F : Forest) {n : Nat} (hn : n < 257) : F.read f n = some (.leaf n (f.getD n 0)) :=
  if_pos hn

theorem Forest.read_internal (f : List Nat) {F : Forest} {j : Nat} {m : Merged} (hm : F.made[j]? = some m) :
    F.read f (257 + j) = some (.internal m.weight m.left m.right) := by
  simp [Forest.read, hm]

theorem expectedNode_toHuffNode (f : List Nat) (k n : Nat) :
    (expectedNode f k n).map NodeView.toHuffNode = (Forest.after f k).read f n := by
  unfold expectedNode Forest.read
  by_cases hn : n < 257
  · simp [hn, NodeView.toHuffNode]
  · cases hm : (Forest.after f k).made[n - 257]? <;> simp [hn, hm, NodeView.toHuffNode]

/-- A consumer reads a completed store as the pure build. -/
theorem readNode_of_completed {s : State} (h : StoreIsBuild s.nodes 256) :
    readNode s = (Forest.after (leafWeights s.nodes) 256).read (leafWeights s.nodes) := by
  funext n
  by_cases hn : n < 513
  · rw [readNode_of_lt s ⟨n, hn⟩, h.2 ⟨n, hn⟩, expectedNode_toHuffNode]
  · have hlen := (forestInv_after (leafWeights_length s.nodes) 256 le_rfl).2
    rw [readNode_of_ge s (Nat.le_of_not_lt hn), Forest.read, if_neg (by omega), List.getElem?_eq_none (by omega)]
    rfl

/-! ### The tree below a node (42_tree_output.md R184) -/

section
variable {f : List Nat} {F : Forest} (hF : ForestInv f F)
include hF

/-- What holds of the leaves, and of an internal node when it holds of its children, holds of every node. -/
theorem ForestInv.node_induction {P : Nat → Prop} (leaf : ∀ n, n < 257 → P n)
    (internal : ∀ (j : Nat) (m : Merged), F.made[j]? = some m → P m.left → P m.right → P (257 + j)) {n : Nat}
    (hn : n < 257 + F.made.length) : P n := by
  induction n using Nat.strong_induction_on with
  | _ n ih =>
    by_cases h : n < 257
    · exact leaf n h
    · obtain ⟨j, rfl⟩ := Nat.exists_eq_add_of_le (Nat.le_of_not_lt h)
      have hj : F.made[j]? = some F.made[j] := List.getElem?_eq_getElem (by omega)
      obtain ⟨hl, hr⟩ := hF.children j _ hj
      exact internal j _ hj (ih _ hl (by omega)) (ih _ hr (by omega))

/-- Below every node there is one tree, however many levels more than its id a walk may take. -/
theorem ForestInv.exists_treeFrom {n : Nat} (hn : n < 257 + F.made.length) :
    ∃ t, ∀ fuel, n < fuel → treeFrom (F.read f) fuel n = some t := by
  refine hF.node_induction (P := fun n => ∃ t, ∀ fuel, n < fuel → treeFrom (F.read f) fuel n = some t)
    (fun n h => ?_) (fun j m hm hl hr => ?_) hn
  · refine ⟨.leaf n (f.getD n 0), fun fuel hfuel => ?_⟩
    obtain ⟨fuel, rfl⟩ := Nat.exists_eq_succ_of_ne_zero (Nat.ne_zero_of_lt hfuel)
    simp only [treeFrom, Forest.read_leaf f F h]
  · obtain ⟨l, hl⟩ := hl
    obtain ⟨r, hr⟩ := hr
    obtain ⟨hlt, hrt⟩ := hF.children j m hm
    refine ⟨.node (257 + j) m.weight l r, fun fuel hfuel => ?_⟩
    obtain ⟨fuel, rfl⟩ := Nat.exists_eq_succ_of_ne_zero (Nat.ne_zero_of_lt hfuel)
    simp only [treeFrom, Forest.read_internal f hm, hl fuel (by omega), hr fuel (by omega)]

end

/-- The tree below node `n` of a build of `f`. -/
def Forest.tree (f : List Nat) (F : Forest) (n : Nat) : Tree := (treeFrom (F.read f) (n + 1) n).getD (.leaf n 0)

theorem Forest.tree_leaf (f : List Nat) (F : Forest) {n : Nat} (hn : n < 257) : F.tree f n = .leaf n (f.getD n 0) := by
  simp only [Forest.tree, treeFrom, Forest.read_leaf f F hn, Option.getD_some]

section
variable {f : List Nat} {F : Forest} (hF : ForestInv f F)
include hF

theorem ForestInv.treeFrom_eq {n fuel : Nat} (hn : n < 257 + F.made.length) (hfuel : n < fuel) :
    treeFrom (F.read f) fuel n = some (F.tree f n) := by
  obtain ⟨t, ht⟩ := hF.exists_treeFrom hn
  rw [Forest.tree, ht fuel hfuel, ht (n + 1) (Nat.lt_succ_self n), Option.getD_some]

theorem ForestInv.tree_internal {j : Nat} {m : Merged} (hm : F.made[j]? = some m) :
    F.tree f (257 + j) = .node (257 + j) m.weight (F.tree f m.left) (F.tree f m.right) := by
  have hj := (List.getElem?_eq_some_iff.mp hm).1
  obtain ⟨hl, hr⟩ := hF.children j m hm
  have htree := hF.treeFrom_eq (n := 257 + j) (by omega) (Nat.lt_succ_self _)
  simp only [treeFrom, Forest.read_internal f hm, hF.treeFrom_eq (hl.trans (by omega)) hl,
    hF.treeFrom_eq (hr.trans (by omega)) hr, Option.some.injEq] at htree
  exact htree.symm

/-! ### Weights and heights (41_tree_build.md R151, R155) -/

/-- A tree's stored weights add up, and its top weighs what its leaves weigh. -/
structure WeighsAsLeaves (w : Nat) (t : Tree) : Prop where
  adds : t.weightsAdd = true
  top : t.topWeight = w
  leaves : t.leafSum = w

theorem ForestInv.weighsAsLeaves (hjoins : ∀ m ∈ F.made, F.Joins f m) {n : Nat} (hn : n < 257 + F.made.length) :
    WeighsAsLeaves (F.weightOf f n) (F.tree f n) := by
  refine hF.node_induction (P := fun n => WeighsAsLeaves (F.weightOf f n) (F.tree f n)) (fun n h => ?_)
    (fun j m hm hl hr => ?_) hn
  · rw [Forest.tree_leaf f F h, Forest.weightOf_leaf f F h]
    exact ⟨rfl, rfl, rfl⟩
  · have hw := (hjoins m (List.mem_of_getElem? hm)).1
    rw [hF.tree_internal hm, Forest.weightOf_internal f hm]
    refine ⟨?_, rfl, ?_⟩
    · simp [Tree.weightsAdd, hl.adds, hr.adds, hl.leaves, hr.leaves, hw]
    · rw [Tree.leafSum, hl.leaves, hr.leaves, hw]

/-- Each level goes to a node of lesser id, and no leaf has an id above 256. -/
theorem ForestInv.height_le {n : Nat} (hn : n < 257 + F.made.length) : (F.tree f n).height ≤ n - 256 := by
  refine hF.node_induction (P := fun n => (F.tree f n).height ≤ n - 256) (fun n h => ?_) (fun j m hm hl hr => ?_) hn
  · rw [Forest.tree_leaf f F h]
    exact Nat.zero_le _
  · obtain ⟨hlt, hrt⟩ := hF.children j m hm
    rw [hF.tree_internal hm, Tree.height]
    omega

end

/-- A tree has no more leaves than the full tree of its height. -/
theorem Tree.length_symbols_le (t : Tree) : t.symbols.length ≤ 2 ^ t.height := by
  induction t with
  | leaf symbol w => exact le_rfl
  | node n w l r ihl ihr =>
    have hl := Nat.pow_le_pow_right (show 0 < 2 by decide) (le_max_left l.height r.height)
    have hr := Nat.pow_le_pow_right (show 0 < 2 by decide) (le_max_right l.height r.height)
    rw [Tree.symbols, Tree.height, List.length_append, pow_succ]
    omega

/-! ### The completed tree -/

theorem sum_map_singletons (g : Nat → Nat) (l : List Nat) :
    (l.map fun n => ({g n} : Multiset Nat)).sum = (l.map g : Multiset Nat) := by
  induction l with
  | nil => rfl
  | cons n l ih => rw [List.map_cons, List.sum_cons, ih, List.map_cons, ← Multiset.cons_coe, Multiset.singleton_add]

section
variable {f : List Nat} (hf : f.length = 257)
include hf

/-- A measure that adds up at the internal nodes adds up at the root to the leaves' and all the nodes' shares. -/
theorem Additive.root {M : Type} [AddCommMonoid M] {μ share leaf : Nat → M}
    (h : Additive μ share (Forest.after f 256)) (hleaf : ∀ n, n < 257 → μ n = leaf n) :
    μ 512 = ((List.range 257).map leaf).sum + ((List.range 256).map share).sum := by
  have hsum := h.sum_queue hf
  rw [completed_queue_ids hf, (forestInv_after hf 256 le_rfl).2, List.map_singleton, List.sum_singleton] at hsum
  rw [hsum, List.map_congr_left fun n hn => hleaf n (List.mem_range.mp hn)]

theorem completed_weightOf_root : (Forest.after f 256).weightOf f 512 = f.sum := by
  have hF := (forestInv_after hf 256 le_rfl).1
  obtain ⟨x, hx, hid⟩ := List.map_eq_singleton_iff.mp (completed_queue_ids hf)
  have hw := hF.weights x (by simp [hx])
  have htotal := hF.total
  rw [hx, List.map_singleton, List.sum_singleton] at htotal
  rw [← hid, ← hw, htotal]

theorem completed_weighsAsLeaves : WeighsAsLeaves f.sum ((Forest.after f 256).tree f 512) := by
  obtain ⟨hF, hlen⟩ := forestInv_after hf 256 le_rfl
  rw [← completed_weightOf_root hf]
  exact hF.weighsAsLeaves (joins_after hf 256) (by omega)

/-- Every symbol is at one leaf of the tree (41_tree_build.md R152). -/
theorem completed_symbols_perm : ((Forest.after f 256).tree f 512).symbols.Perm (List.range 257) := by
  have hF := (forestInv_after hf 256 le_rfl).1
  have hadd : Additive (fun n => (((Forest.after f 256).tree f n).symbols : Multiset Nat)) (fun _ => 0)
      (Forest.after f 256) := by
    intro j m hm
    simp only [hF.tree_internal hm, Tree.symbols, Multiset.coe_add, add_zero]
  have hroot := hadd.root hf (leaf := fun n => {n}) fun n hn => by
    rw [Forest.tree_leaf f _ hn]
    rfl
  rw [sum_map_singletons fun n => n, List.sum_map_zero, add_zero, List.map_id'] at hroot
  exact Multiset.coe_eq_coe.mp hroot

/-- Every internal id is at one internal node of the tree (41_tree_build.md R152). -/
theorem completed_internalIds_perm :
    ((Forest.after f 256).tree f 512).internalIds.Perm ((List.range 256).map fun k => 257 + k) := by
  have hF := (forestInv_after hf 256 le_rfl).1
  have hadd : Additive (fun n => (((Forest.after f 256).tree f n).internalIds : Multiset Nat)) (fun j => {257 + j})
      (Forest.after f 256) := by
    intro j m hm
    simp only [hF.tree_internal hm, Tree.internalIds, Multiset.coe_add, ← Multiset.cons_coe]
    rw [← Multiset.singleton_add, add_comm]
  have hroot := hadd.root hf (leaf := fun _ => 0) fun n hn => by
    rw [Forest.tree_leaf f _ hn]
    rfl
  rw [sum_map_singletons, List.sum_map_zero, zero_add] at hroot
  exact Multiset.coe_eq_coe.mp hroot

theorem completed_height_bounds :
    9 ≤ ((Forest.after f 256).tree f 512).height ∧ ((Forest.after f 256).tree f 512).height ≤ 256 := by
  obtain ⟨hF, hlen⟩ := forestInv_after hf 256 le_rfl
  refine ⟨?_, hF.height_le (by omega)⟩
  have hleaves := ((Forest.after f 256).tree f 512).length_symbols_le
  rw [(completed_symbols_perm hf).length_eq, List.length_range] at hleaves
  by_contra hlow
  have hpow := Nat.pow_le_pow_right (show 0 < 2 by decide) (Nat.le_of_lt_succ (not_le.mp hlow))
  omega

/-- The nodes below the root are the children, each once (41_tree_build.md R152). -/
theorem completed_childIds_perm : (Forest.after f 256).childIds.Perm (List.range 512) := by
  have h := childIds_append_queue_perm hf 256
  rw [completed_queue_ids hf, (forestInv_after hf 256 le_rfl).2, List.range_succ] at h
  exact (List.perm_append_right_iff _).mp h

end

/-! ### Parents and children (41_tree_build.md R152) -/

theorem mem_childIds {F : Forest} {n : Nat} : n ∈ F.childIds ↔ ∃ m ∈ F.made, m.left = n ∨ m.right = n := by
  simp [Forest.childIds, eq_comm]

/-- Where the children are all different, no node has two parents. -/
theorem parent_unique {F : Forest} (hd : F.childIds.Nodup) {i j n : Nat} {m m' : Merged} (hi : F.made[i]? = some m)
    (hj : F.made[j]? = some m') (hn : m.left = n ∨ m.right = n) (hn' : m'.left = n ∨ m'.right = n) : i = j := by
  have hdisjoint := List.pairwise_iff_getElem.mp (List.nodup_flatMap.mp hd).2
  obtain ⟨hli, rfl⟩ := List.getElem?_eq_some_iff.mp hi
  obtain ⟨hlj, rfl⟩ := List.getElem?_eq_some_iff.mp hj
  have hmem : n ∈ [F.made[i].left, F.made[i].right] := by simpa [eq_comm] using hn
  have hmem' : n ∈ [F.made[j].left, F.made[j].right] := by simpa [eq_comm] using hn'
  rcases lt_trichotomy i j with h | h | h
  · exact absurd hmem' (hdisjoint i j hli hlj h hmem)
  · exact h
  · exact absurd hmem (hdisjoint j i hlj hli h hmem')

theorem children_ne {F : Forest} (hd : F.childIds.Nodup) {m : Merged} (hm : m ∈ F.made) : m.left ≠ m.right := by
  have h := (List.nodup_flatMap.mp hd).1 m hm
  simpa using h

theorem Forest.read_eq_internal_iff {f : List Nat} {F : Forest} {n w l r : Nat} :
    F.read f n = some (.internal w l r) ↔ ∃ j, n = 257 + j ∧ F.made[j]? = some { weight := w, left := l, right := r } := by
  constructor
  · intro h
    by_cases hn : n < 257
    · rw [Forest.read_leaf f F hn] at h
      cases h
    · obtain ⟨j, rfl⟩ := Nat.exists_eq_add_of_le (Nat.le_of_not_lt hn)
      refine ⟨j, rfl, ?_⟩
      cases hm : F.made[j]? with
      | none => simp [Forest.read, hm] at h
      | some m =>
        rw [Forest.read_internal f hm] at h
        cases h
        rfl
  · rintro ⟨j, rfl, hm⟩
    exact Forest.read_internal f hm

/-- A consumer that reads the build of `f` sees `n` as a child of `p`. -/
def Forest.ChildOf (f : List Nat) (F : Forest) (n p : Nat) : Prop :=
  ∃ w l r, F.read f p = some (.internal w l r) ∧ (l = n ∨ r = n)

theorem Forest.childOf_iff {f : List Nat} {F : Forest} {n p : Nat} :
    F.ChildOf f n p ↔ ∃ j m, p = 257 + j ∧ F.made[j]? = some m ∧ (m.left = n ∨ m.right = n) := by
  constructor
  · rintro ⟨w, l, r, hread, hn⟩
    obtain ⟨j, hp, hm⟩ := Forest.read_eq_internal_iff.mp hread
    exact ⟨j, _, hp, hm, hn⟩
  · rintro ⟨j, m, rfl, hm, hn⟩
    exact ⟨m.weight, m.left, m.right, Forest.read_internal f hm, hn⟩

section
variable {f : List Nat} (hf : f.length = 257)
include hf

theorem completed_childIds_nodup : (Forest.after f 256).childIds.Nodup :=
  (completed_childIds_perm hf).nodup_iff.mpr List.nodup_range

/-- Every node but the root has one parent (41_tree_build.md R152). -/
theorem completed_parent_existsUnique {n : Nat} (hn : n < 512) : ∃! p, (Forest.after f 256).ChildOf f n p := by
  have hd := completed_childIds_nodup hf
  obtain ⟨m, hm, hchild⟩ := mem_childIds.mp ((completed_childIds_perm hf).mem_iff.mpr (List.mem_range.mpr hn))
  obtain ⟨j, hj⟩ := List.mem_iff_getElem?.mp hm
  refine ⟨257 + j, Forest.childOf_iff.mpr ⟨j, m, rfl, hj, hchild⟩, fun p hp => ?_⟩
  obtain ⟨i, m', rfl, hi, hchild'⟩ := Forest.childOf_iff.mp hp
  rw [parent_unique hd hi hj hchild' hchild]

/-- An internal node has two children, with ids below its own (41_tree_build.md R152). -/
theorem completed_internal {n : Nat} (hn : 257 ≤ n) (hn' : n < 513) :
    ∃ w l r, (Forest.after f 256).read f n = some (.internal w l r) ∧ l < n ∧ r < n ∧ l ≠ r := by
  obtain ⟨hF, hlen⟩ := forestInv_after hf 256 le_rfl
  obtain ⟨j, rfl⟩ := Nat.exists_eq_add_of_le hn
  have hm : (Forest.after f 256).made[j]? = some (Forest.after f 256).made[j] := List.getElem?_eq_getElem (by omega)
  obtain ⟨hl, hr⟩ := hF.children j _ hm
  exact ⟨_, _, _, Forest.read_internal f hm, hl, hr, children_ne (completed_childIds_nodup hf) (List.getElem_mem _)⟩

end

/-- The tree a consumer walks is that of the pure build. -/
theorem builtTree_of_completed {s : State} (h : StoreIsBuild s.nodes 256) :
    builtTree s = some ((Forest.after (leafWeights s.nodes) 256).tree (leafWeights s.nodes) 512) := by
  obtain ⟨hF, hlen⟩ := forestInv_after (leafWeights_length s.nodes) 256 le_rfl
  rw [builtTree, readNode_of_completed h]
  exact hF.treeFrom_eq (n := 512) (by omega) (by decide)

/-- WEIGHT of the root is the total of the leaves (41_tree_build.md R151). -/
theorem weight_root_of_completed {s : State} (h : StoreIsBuild s.nodes 256) :
    (weight s 512).toNat = (leafWeights s.nodes).sum := by
  have hv : s.nodes[(512 : NodeId)].valid = true := h.valid_of_lt le_rfl (by decide)
  rw [← completed_weightOf_root (leafWeights_length s.nodes), weight, nodeWeight_valid hv]
  exact h.weight_eq hv

end Sys2Proof.Machine
end

section
namespace Sys2Proof
open Machine

/-- Settles O55: the root's weight by the total over Q, and every other's by induction over the nodes. -/
theorem rootWeightIsLeafSum : Obligations.RootWeightIsLeafSum := by
  intro s hI hv
  have h := hI.store.whenValid hv
  obtain ⟨hadds, htop, -⟩ := completed_weighsAsLeaves (leafWeights_length s.nodes)
  exact ⟨weight_root_of_completed h, _, builtTree_of_completed h, hadds, htop⟩

/-- Settles O56: the nodes of the tree by the sums over Q, and its edges by the children of the merges. -/
theorem completedStoreHoldsOneTree : Obligations.CompletedStoreHoldsOneTree := by
  intro s hI hv
  have h := hI.store.whenValid hv
  have hf := leafWeights_length s.nodes
  rw [readNode_of_completed h]
  refine ⟨⟨_, builtTree_of_completed h, completed_symbols_perm hf, completed_internalIds_perm hf⟩, ?leaves, ?internal,
    ?parents⟩
  case leaves => exact fun n hn => ⟨_, Forest.read_leaf _ _ hn⟩
  case internal => exact fun n hn hn' => completed_internal hf hn hn'
  case parents => exact fun m hm => completed_parent_existsUnique hf hm

/-- Settles O58: at least 9 for its 257 leaves, and at most 256 since the ids go down along a path. -/
theorem treeHeightIsBounded : Obligations.TreeHeightIsBounded := by
  intro s hI hv
  exact ⟨_, builtTree_of_completed (hI.store.whenValid hv), completed_height_bounds (leafWeights_length s.nodes)⟩

end Sys2Proof
end

section
/-! The two FIFOs of 41_tree_build.md R146 against the selection by least key: as long as both FIFOs are sorted the two
removals take the two least keys of Q, and the FIFO of internal nodes stays sorted because no merge makes a node that
weighs less than one made before (R154). -/

namespace Sys2Proof.Machine

/-! ### Sorted keys -/

/-- Keys in strict order, least first. -/
def KeysSorted (l : List Key) : Prop := l.Pairwise fun x y => x.lt y = true

theorem KeysSorted.of_suffix {l l' : List Key} (h : KeysSorted l) (hs : l' <:+ l) : KeysSorted l' :=
  h.sublist hs.sublist

theorem KeysSorted.head_lt {x : Key} {l : List Key} (h : KeysSorted (x :: l)) : ∀ z ∈ l, x.lt z = true :=
  (List.pairwise_cons.mp h).1

/-- What is below the head of a sorted list is below all of it. -/
theorem KeysSorted.lt_all {x y : Key} {l : List Key} (h : KeysSorted (y :: l)) (hxy : x.lt y = true) :
    ∀ z ∈ y :: l, x.lt z = true :=
  List.forall_mem_cons.mpr ⟨hxy, fun z hz => Key.lt_trans hxy (h.head_lt z hz)⟩

theorem insertKey_perm (x : Key) (l : List Key) : (insertKey x l).Perm (x :: l) := by
  induction l with
  | nil => exact .refl _
  | cons y ys ih =>
    unfold insertKey
    split
    · exact .refl _
    · exact (ih.cons y).trans (.swap x y ys)

theorem sortKeys_perm (l : List Key) : (sortKeys l).Perm l := by
  induction l with
  | nil => exact .refl _
  | cons x xs ih => exact (insertKey_perm x _).trans (ih.cons x)

theorem KeysSorted.insertKey {x : Key} {l : List Key} (h : KeysSorted l) (hx : x ∉ l) : KeysSorted (insertKey x l) := by
  induction l with
  | nil => exact List.pairwise_singleton _ _
  | cons y ys ih =>
    obtain ⟨hy, hys⟩ := List.pairwise_cons.mp h
    obtain ⟨hne, hnotin⟩ := not_or.mp (List.mem_cons.not.mp hx)
    unfold Machine.insertKey
    split
    · next hlt => exact List.pairwise_cons.mpr ⟨h.lt_all hlt, h⟩
    · next hlt =>
      have hyx : y.lt x = true := (Key.lt_or_lt hne).resolve_left hlt
      refine List.pairwise_cons.mpr ⟨fun z hz => ?_, ih hys hnotin⟩
      rcases List.mem_cons.mp ((insertKey_perm x ys).mem_iff.mp hz) with rfl | hz
      · exact hyx
      · exact hy z hz

theorem keysSorted_sortKeys {l : List Key} (h : l.Nodup) : KeysSorted (sortKeys l) := by
  induction l with
  | nil => exact .nil
  | cons x xs ih =>
    obtain ⟨hx, hxs⟩ := List.nodup_cons.mp h
    exact (ih hxs).insertKey fun hmem => hx ((sortKeys_perm xs).mem_iff.mp hmem)

/-! ### The removal of the lesser head -/

/-- `a` taken off one of two FIFOs: what stays are the ends of both, and `a` is below all of it. -/
structure PopsLeast (xs ys : List Key) (a : Key) (xs' ys' : List Key) : Prop where
  perm : (xs ++ ys).Perm (a :: (xs' ++ ys'))
  leftEnd : xs' <:+ xs
  rightEnd : ys' <:+ ys
  least : ∀ z ∈ xs' ++ ys', a.lt z = true

/-- Of two sorted FIFOs the lesser head is the least key. -/
theorem popLesser_popsLeast {xs ys xs' ys' : List Key} {a : Key} (hx : KeysSorted xs) (hy : KeysSorted ys)
    (hd : (xs ++ ys).Nodup) (h : popLesser xs ys = some (a, xs', ys')) : PopsLeast xs ys a xs' ys' := by
  cases xs with
  | nil =>
    cases ys with
    | nil => cases h
    | cons y ys =>
      cases h
      exact ⟨.refl _, List.suffix_rfl, List.suffix_cons _ _, hy.head_lt⟩
  | cons x xs =>
    cases ys with
    | nil =>
      cases h
      exact ⟨.refl _, List.suffix_cons _ _, List.suffix_rfl, by simpa using hx.head_lt⟩
    | cons y ys =>
      simp only [popLesser] at h
      split at h
      · next hyx =>
        cases h
        exact ⟨List.perm_middle, List.suffix_rfl, List.suffix_cons _ _,
          List.forall_mem_append.mpr ⟨hx.lt_all hyx, hy.head_lt⟩⟩
      · next hyx =>
        have hne : x ≠ y := fun e => (List.nodup_cons.mp hd).1 (by simp [e])
        have hxy : x.lt y = true := (Key.lt_or_lt hne).resolve_right hyx
        cases h
        exact ⟨.refl _, List.suffix_cons _ _, List.suffix_rfl,
          List.forall_mem_append.mpr ⟨hx.head_lt, hy.lt_all hxy⟩⟩

theorem popLesser_eq_none {xs ys : List Key} (h : popLesser xs ys = none) : xs ++ ys = [] := by
  cases xs with
  | nil =>
    cases ys with
    | nil => rfl
    | cons y ys => cases h
  | cons x xs =>
    cases ys with
    | nil => cases h
    | cons y ys =>
      simp only [popLesser] at h
      split at h <;> cases h

/-! ### The simulation -/

/-- Two FIFOs at the same stage as a build: they hold its Q, each in order, and the internal nodes are ones made. -/
structure Simulates (F : Forest) (T : TwoFifo) : Prop where
  made : T.made = F.made
  queue : F.queue.Perm (T.leaves ++ T.internals)
  leavesSorted : KeysSorted T.leaves
  internalsSorted : KeysSorted T.internals
  internalsMade : ∀ x ∈ T.internals, ∃ m ∈ F.made, x.weight = m.weight

/-- A pair at the head of a queue's order is the selected one, and what it leaves is the rest. -/
theorem selectPair_of_perm {q rest : List Key} {a b : Key} (hd : (q.map Key.id).Nodup) (hp : q.Perm (a :: b :: rest))
    (ha : ∀ z ∈ b :: rest, a.lt z = true) (hb : ∀ z ∈ rest, b.lt z = true) :
    selectPair q = some (a, b) ∧ (withoutId b.id (withoutId a.id q)).Perm rest := by
  have hs : selectPair q = some (a, b) := by
    have hids := (hp.map Key.id).nodup_iff.mp hd
    simp only [List.map_cons, List.nodup_cons, List.mem_cons, not_or] at hids
    refine selectPair_unique (hp.mem_iff.mpr (by simp)) (hp.mem_iff.mpr (by simp)) (Ne.symm hids.1.1) ?_ ?_
    · intro x hx hxa
      exact ha x ((List.mem_cons.mp (hp.mem_iff.mp hx)).resolve_left hxa)
    · intro x hx hxa hxb
      have hx' := (List.mem_cons.mp (hp.mem_iff.mp hx)).resolve_left fun e => hxa (by rw [e])
      exact hb x ((List.mem_cons.mp hx').resolve_left hxb)
  exact ⟨hs, (((selectPair_perm hd hs).symm.trans hp).cons_inv).cons_inv⟩

theorem Forest.merge_eq_self_of_short {F : Forest} (hd : (F.queue.map Key.id).Nodup) (h : F.queue.length < 2) :
    F.merge = F := by
  apply Forest.merge_eq_self
  cases hs : selectPair F.queue with
  | none => rfl
  | some p => exact absurd (two_le_length_of_selectPair hd hs) (Nat.not_le.mpr h)

/-- A merge of the two keys that the FIFOs give one after the other. -/
theorem TwoFifo.merge_eq {T : TwoFifo} {a b : Key} {xs ys xs' ys' : List Key}
    (ha : popLesser T.leaves T.internals = some (a, xs, ys)) (hb : popLesser xs ys = some (b, xs', ys')) :
    T.merge = { made := T.made ++ [{ weight := a.weight + b.weight, left := a.id, right := b.id }]
                leaves := xs'
                internals := ys' ++ [{ weight := a.weight + b.weight, id := 257 + T.made.length }] } := by
  simp only [TwoFifo.merge, ha, hb]

/-- Where the FIFOs hold fewer than two keys neither side merges. -/
theorem Simulates.merge_of_short {f : List Nat} {F : Forest} {T : TwoFifo} (hF : ForestInv f F) (h : Simulates F T)
    (hshort : (T.leaves ++ T.internals).length < 2) (hT : T.merge = T) : Simulates F.merge T.merge := by
  rw [hT, Forest.merge_eq_self_of_short hF.idsDistinct (h.queue.length_eq ▸ hshort)]
  exact h

/-- Where the FIFOs give two keys, these are A and B, and both sides make the same node. -/
theorem Simulates.merge_of_pops {f : List Nat} {F : Forest} {T : TwoFifo} (hF : ForestInv f F) (ho : MergeOrder F)
    (h : Simulates F T) {a b : Key} {xs ys xs' ys' : List Key} (ha : popLesser T.leaves T.internals = some (a, xs, ys))
    (hb : popLesser xs ys = some (b, xs', ys')) (hpa : PopsLeast T.leaves T.internals a xs ys)
    (hpb : PopsLeast xs ys b xs' ys') : Simulates F.merge T.merge := by
  obtain ⟨hmade, hqueue, hleaves, hinternals, hfrom⟩ := h
  have hleastA : ∀ z ∈ b :: (xs' ++ ys'), a.lt z = true := fun z hz => hpa.least z (hpb.perm.mem_iff.mpr hz)
  obtain ⟨hs, hrest⟩ := selectPair_of_perm hF.idsDistinct (hqueue.trans (hpa.perm.trans (hpb.perm.cons a))) hleastA
    hpb.least
  have hys : ys' <:+ T.internals := hpb.rightEnd.trans hpa.rightEnd
  obtain ⟨haq, hbq, hne, -, -⟩ := selectPair_spec hs
  have hbelow : ∀ m ∈ F.made, m.weight ≤ a.weight + b.weight := fun m hm => ho.belowPairs m hm a haq b hbq hne.symm
  rw [Forest.merge_eq hs, TwoFifo.merge_eq ha hb, hmade]
  constructor
  · rfl
  · rw [← List.append_assoc]
    exact hrest.append_right _
  · exact hleaves.of_suffix (hpb.leftEnd.trans hpa.leftEnd)
  · refine List.pairwise_append.mpr ⟨hinternals.of_suffix hys, List.pairwise_singleton _ _, fun x hx y hy => ?_⟩
    obtain rfl := List.mem_singleton.mp hy
    have hxT : x ∈ T.internals := hys.subset hx
    obtain ⟨m, hm, hxm⟩ := hfrom x hxT
    have hid := hF.idsMade x (hqueue.mem_iff.mpr (List.mem_append_right _ hxT))
    have hw := hbelow m hm
    rw [Key.lt_iff]
    dsimp only
    omega
  · intro x hx
    rcases List.mem_append.mp hx with hx | hx
    · obtain ⟨m, hm, hxm⟩ := hfrom x (hys.subset hx)
      exact ⟨m, List.mem_append_left _ hm, hxm⟩
    · obtain rfl := List.mem_singleton.mp hx
      exact ⟨_, List.mem_append_right _ List.mem_cons_self, rfl⟩

theorem Simulates.merge {f : List Nat} {F : Forest} {T : TwoFifo} (hF : ForestInv f F) (ho : MergeOrder F)
    (h : Simulates F T) : Simulates F.merge T.merge := by
  have hd : (T.leaves ++ T.internals).Nodup := h.queue.nodup_iff.mp hF.idsDistinct.of_map
  cases ha : popLesser T.leaves T.internals with
  | none =>
    refine h.merge_of_short hF ?_ (by simp only [TwoFifo.merge, ha])
    simp [popLesser_eq_none ha]
  | some p =>
    obtain ⟨a, xs, ys⟩ := p
    have hpa := popLesser_popsLeast h.leavesSorted h.internalsSorted hd ha
    cases hb : popLesser xs ys with
    | none =>
      refine h.merge_of_short hF ?_ (by simp only [TwoFifo.merge, ha, hb])
      simp [hpa.perm.length_eq, popLesser_eq_none hb]
    | some p =>
      obtain ⟨b, xs', ys'⟩ := p
      have hd' : (xs ++ ys).Nodup := (List.nodup_cons.mp (hpa.perm.nodup_iff.mp hd)).2
      exact h.merge_of_pops hF ho ha hb hpa (popLesser_popsLeast (h.leavesSorted.of_suffix hpa.leftEnd)
        (h.internalsSorted.of_suffix hpa.rightEnd) hd' hb)

theorem leafKeys_nodup (f : List Nat) : (leafKeys f).Nodup :=
  List.Nodup.of_map Key.id (leafKeys_ids f ▸ List.nodup_range)

theorem simulates_start (f : List Nat) : Simulates (Forest.start f) (TwoFifo.after f 0) where
  made := rfl
  queue := by
    rw [TwoFifo.after, List.append_nil]
    exact (sortKeys_perm _).symm
  leavesSorted := keysSorted_sortKeys (leafKeys_nodup f)
  internalsSorted := .nil
  internalsMade _ hx := nomatch hx

/-- The stages of a build after any number of rounds, also beyond the last merge. -/
theorem forestInv_afterAll {f : List Nat} (hf : f.length = 257) (k : Nat) : ForestInv f (Forest.after f k) :=
  Forest.after_induction hf (forestInv_start hf)
    (fun _ _ _ hF hs _ => forestInv_merge hF (two_le_length_of_selectPair hF.idsDistinct hs)) k

theorem simulates_after {f : List Nat} (hf : f.length = 257) (k : Nat) : Simulates (Forest.after f k) (TwoFifo.after f k) := by
  induction k with
  | zero => exact simulates_start f
  | succ k ih => exact ih.merge (forestInv_afterAll hf k) (mergeOrder_after hf k)

end Sys2Proof.Machine
end

section
namespace Sys2Proof
open Machine

/-- Settles O37: the two FIFOs simulate the build, and a simulation has the same internal nodes. -/
theorem twoFifoBuildEqualsLeastKeyBuild : Obligations.TwoFifoBuildEqualsLeastKeyBuild :=
  fun _ k hf => (simulates_after hf k).made

end Sys2Proof
end

section
/-! What downstream blocks derive from a walked tree (42_tree_output.md R184 to R187): its codes and its header, by induction
over the tree, whatever tree it is. -/

namespace Sys2Proof.Machine

/-! ### Codes (42_tree_output.md R184, R185) -/

/-- The bits of the path so far go ahead of the codes of the tree below. -/
theorem Tree.codesFrom_append (t : Tree) (p q : List Bool) :
    t.codesFrom (p ++ q) = (t.codesFrom q).map (Prod.map id (p ++ ·)) := by
  induction t generalizing q with
  | leaf symbol w => rfl
  | node n w l r ihl ihr => simp only [codesFrom, List.append_assoc, ihl, ihr, List.map_append]

theorem Tree.codes_node (n w : Nat) (l r : Tree) :
    (Tree.node n w l r).codes = l.codes.map (Prod.map id (false :: ·)) ++ r.codes.map (Prod.map id (true :: ·)) :=
  congrArg₂ (· ++ ·) (l.codesFrom_append [false] []) (r.codesFrom_append [true] [])

/-- A code of an internal node is a bit and a code of the child on that side. -/
theorem Tree.mem_codes_node {n w : Nat} {l r : Tree} {x : Nat × List Bool} :
    x ∈ (Tree.node n w l r).codes ↔ ∃ b, ∃ y ∈ (if b = true then r else l).codes, x = (y.1, b :: y.2) := by
  simp [Tree.codes_node, Prod.map, eq_comm]

theorem Tree.codes_symbols (t : Tree) : t.codes.map Prod.fst = t.symbols := by
  induction t with
  | leaf symbol w => rfl
  | node n w l r ihl ihr =>
    rw [codes_node, symbols, ← ihl, ← ihr, List.map_append, List.map_map, List.map_map]
    rfl

/-- Two codes of which one begins with the other take the same side at each node, so they end at one leaf. -/
theorem Tree.eq_of_code_prefix (t : Tree) : ∀ x ∈ t.codes, ∀ y ∈ t.codes, x.2 <+: y.2 → x = y := by
  induction t with
  | leaf symbol w =>
    intro x hx y hy _
    rw [List.mem_singleton.mp hx, List.mem_singleton.mp hy]
  | node n w l r ihl ihr =>
    intro x hx y hy hprefix
    obtain ⟨b, x', hx', rfl⟩ := mem_codes_node.mp hx
    obtain ⟨c, y', hy', rfl⟩ := mem_codes_node.mp hy
    obtain ⟨rfl, hprefix'⟩ := List.cons_prefix_cons.mp hprefix
    cases b with
    | false => rw [ihl x' hx' y' hy' hprefix']
    | true => rw [ihr x' hx' y' hy' hprefix']

theorem Tree.code_length_le_height (t : Tree) : ∀ x ∈ t.codes, x.2.length ≤ t.height := by
  induction t with
  | leaf symbol w =>
    intro x hx
    rw [List.mem_singleton.mp hx]
    exact le_rfl
  | node n w l r ihl ihr =>
    intro x hx
    obtain ⟨b, y, hy, rfl⟩ := mem_codes_node.mp hx
    refine Nat.succ_le_succ ?_
    cases b with
    | false => exact (ihl y hy).trans (le_max_left _ _)
    | true => exact (ihr y hy).trans (le_max_right _ _)

/-- Only the code of a lone leaf is empty. -/
theorem Tree.code_length_pos {t : Tree} (ht : 0 < t.height) : ∀ x ∈ t.codes, 1 ≤ x.2.length := by
  intro x hx
  cases t with
  | leaf symbol w => exact absurd ht (Nat.lt_irrefl 0)
  | node n w l r =>
    obtain ⟨b, x, -, rfl⟩ := mem_codes_node.mp hx
    exact Nat.succ_le_succ (Nat.zero_le _)

/-! ### Header (42_tree_output.md R186, R187) -/

theorem bits9_length (n : Nat) : (bits9 n).length = 9 := rfl

/-- Bit `i` follows the bits above it. -/
theorem two_mul_div_add_testBit (n i : Nat) : 2 * (n / 2 ^ (i + 1)) + (n.testBit i).toNat = n / 2 ^ i := by
  rw [Nat.toNat_testBit, pow_succ, ← Nat.div_div_eq_div_mul, Nat.div_add_mod]

/-- Nine bits hold every number below 512. -/
theorem bitsValue_bits9 {n : Nat} (hn : n < 512) : bitsValue (bits9 n) = n := by
  have hhigh : 0 = n / 2 ^ (8 + 1) := (Nat.div_eq_of_lt hn).symm
  rw [bitsValue, hhigh]
  simp only [bits9, List.foldl_cons, List.foldl_nil, two_mul_div_add_testBit, pow_zero, Nat.div_one]

/-- Ten bits for each leaf and one for each internal node. -/
theorem Tree.header_length (t : Tree) : t.header.length = 10 * t.symbols.length + t.internalIds.length := by
  induction t with
  | leaf symbol w => rfl
  | node n w l r ihl ihr =>
    simp only [header, symbols, internalIds, List.length_cons, List.length_append, ihl, ihr]
    omega

theorem readHeader_leaf (fuel : Nat) {symbol : Nat} (h : symbol < 512) (rest : List Bool) :
    readHeader (fuel + 1) (true :: (bits9 symbol ++ rest)) = some (.leaf symbol 0, rest) := by
  have hlen : ¬(bits9 symbol ++ rest).length < 9 := by simp [bits9_length]
  rw [readHeader, if_neg hlen, List.take_left' (bits9_length symbol), List.drop_left' (bits9_length symbol),
    bitsValue_bits9 h]

/-- Reading a header gives the tree's shape and leaves what follows it, whatever follows. -/
theorem Tree.readHeader_header_append (t : Tree) (hsymbols : ∀ n ∈ t.symbols, n < 512) {fuel : Nat}
    (hfuel : t.height < fuel) (rest : List Bool) : readHeader fuel (t.header ++ rest) = some (t.shape, rest) := by
  induction t generalizing fuel rest with
  | leaf symbol w =>
    obtain ⟨fuel, rfl⟩ := Nat.exists_eq_succ_of_ne_zero (Nat.ne_zero_of_lt hfuel)
    exact readHeader_leaf fuel (hsymbols symbol (List.mem_singleton_self symbol)) rest
  | node n w l r ihl ihr =>
    obtain ⟨fuel, rfl⟩ := Nat.exists_eq_succ_of_ne_zero (Nat.ne_zero_of_lt hfuel)
    obtain ⟨hl, hr⟩ := List.forall_mem_append.mp hsymbols
    obtain ⟨hlfuel, hrfuel⟩ := max_lt_iff.mp (Nat.lt_of_succ_lt_succ hfuel)
    simp only [header, List.cons_append, List.append_assoc, readHeader, ihl hl hlfuel, ihr hr hrfuel, shape]

theorem Tree.readHeader_header {t : Tree} (hsymbols : ∀ n ∈ t.symbols, n < 512) :
    readHeader (t.height + 1) t.header = some (t.shape, []) := by
  have h := t.readHeader_header_append hsymbols (Nat.lt_succ_self _) []
  rwa [List.append_nil] at h

end Sys2Proof.Machine
end

section
namespace Sys2Proof
open Machine

/-- Settles O59: the codes' symbols are those of the leaves, two codes of which one begins with the other end at one leaf,
and a code is no longer than the tree is high. -/
theorem codesArePrefixFree : Obligations.CodesArePrefixFree := by
  intro s hI hv
  have hf := leafWeights_length s.nodes
  obtain ⟨hlow, hhigh⟩ := completed_height_bounds hf
  have hsymbols := completed_symbols_perm hf
  rw [← Tree.codes_symbols] at hsymbols
  refine ⟨_, builtTree_of_completed (hI.store.whenValid hv), hsymbols, ?prefixFree, ?lengths, ?eof⟩
  case prefixFree =>
    exact fun x hx y hy hne hprefix => hne (congrArg Prod.fst (Tree.eq_of_code_prefix _ x hx y hy hprefix))
  case lengths =>
    exact fun x hx => ⟨Tree.code_length_pos (by omega) x hx, (Tree.code_length_le_height _ x hx).trans hhigh⟩
  case eof =>
    have heof := hsymbols.mem_iff.mpr (List.mem_range.mpr (show 256 < 257 by decide))
    obtain ⟨⟨_, code⟩, hmem, rfl⟩ := List.mem_map.mp heof
    exact ⟨code, hmem⟩

/-- Settles O60: 257 leaves of ten bits and 256 internal nodes of one, and the header read back by induction over the
tree. -/
theorem headerCarriesShapeIn2826Bits : Obligations.HeaderCarriesShapeIn2826Bits := by
  intro s hI hv
  have hf := leafWeights_length s.nodes
  have hsymbols := completed_symbols_perm hf
  refine ⟨_, builtTree_of_completed (hI.store.whenValid hv), ?bits, ?readBack⟩
  case bits =>
    rw [Tree.header_length, hsymbols.length_eq, (completed_internalIds_perm hf).length_eq, List.length_map,
      List.length_range, List.length_range]
  case readBack =>
    exact Tree.readHeader_header fun n hn => (List.mem_range.mp (hsymbols.mem_iff.mp hn)).trans (by decide)

/-- Settles O54: the decoded view, in its three cases. -/
theorem nodeWordDecodesToItsNode : Obligations.NodeWordDecodesToItsNode := by
  intro e
  rw [decodeNodeWord_of_view, viewNode]
  cases e.valid with
  | false => rfl
  | true => cases e.leaf <;> rfl

end Sys2Proof
end

section
/-! The tree read port by the range of its index (42_tree_output.md R181). -/

namespace Sys2Proof.Machine

theorem portNode_of_toNat_eq {idx : NodePtr} {n : NodeId} (h : idx.toNat = n.val) : portNode idx = some n := by
  rw [← portNode_ofNat n, ← h, BitVec.ofNat_toNat, BitVec.setWidth_eq]

theorem portNode_of_ge {idx : NodePtr} (h : 513 ≤ idx.toNat) : portNode idx = none := dif_neg (Nat.not_lt.mpr h)

theorem port_of_node {s : State} {idx : NodePtr} {n : NodeId} (h : idx.toNat = n.val) :
    portLink s idx = link s n ∧ portWeight s idx = weight s n := by
  simp [portLink, portWeight, portNode_of_toNat_eq h]

theorem port_of_ge (s : State) {idx : NodePtr} (h : 513 ≤ idx.toNat) :
    portLink s idx = 0#32 ∧ portWeight s idx = 0#32 := by
  simp [portLink, portWeight, portNode_of_ge h]

end Sys2Proof.Machine
end

section
namespace Sys2Proof
open Machine

/-- Settles O53: the port by the range of its index, and the host reads by the same words. -/
theorem treePortReadsNodeStore : Obligations.TreePortReadsNodeStore := by
  intro s idx
  refine ⟨rfl, rfl, ?node, port_of_ge s, rfl⟩
  case node =>
    intro n h
    obtain ⟨hlink, hweight⟩ := port_of_node (s := s) h
    exact ⟨hlink, hweight, next_respond hlink.symm s, next_respond hweight.symm s⟩

end Sys2Proof
end

section
/-! What a busy block lets the host and the consumer do, and what a reset leaves (70_reset_and_hazards.md R230, R231,
R240, R245). -/

namespace Sys2Proof.Machine

variable {s t : State}

/-! ### Rejected operations (40_host_operations.md R104, R105, R110; R240) -/

section
variable (hp : s.phase ≠ .idle)
include hp

theorem exec_cmdBuild_of_busy : exec .cmdBuild s = .next { s with errBusy := true, rdata := none } :=
  congrArg Host.Outcome.next (whenIdle_busy hp)

theorem exec_cmdClearf_of_busy : exec .cmdClearf s = .next { s with errBusy := true, rdata := none } :=
  congrArg Host.Outcome.next (whenIdle_busy hp)

theorem exec_wrFreq_of_busy (i : Sym) (v : Word) :
    exec (.wrFreq i v) s = .next { s with errBusy := true, rdata := none } :=
  congrArg Host.Outcome.next (whenIdle_busy hp)

/-- The two host operations that write control registers need IDLE. -/
theorem exec_control_of_busy {i : Instr} (h : exec i s = .next t) : t.control = s.control := by
  rcases exec_control h with hc | ⟨-, hidle, -⟩ | ⟨-, hidle, -⟩
  · exact hc
  · exact absurd hidle hp
  · exact absurd hidle hp

end

/-! ### The enabled step under other agents' moves (R245) -/

/-- Which step is enabled depends on the control registers alone (41_tree_build.md R140). -/
theorem enabledStep_congr (h : t.control = s.control) : enabledStep t = enabledStep s := by
  have hphase : t.phase = s.phase := congrArg Control.phase h
  have hdone : t.initDone = s.initDone := congrArg Control.initDone h
  have hmerges : t.merges = s.merges := congrArg Control.merges h
  simp only [enabledStep, hphase, hdone, hmerges]

theorem phase_ne_idle_of_enabledStep {e : SequencerStep} (h : enabledStep s = some e) : s.phase ≠ .idle := by
  intro hp
  simp [enabledStep_of_idle hp] at h

/-- While the block is busy, neither the host nor the consumer touches the control registers. -/
theorem takeInput_control_of_busy (hp : s.phase ≠ .idle) {i : Input} (hreset : i ≠ .reset) (hseq : i ≠ .sequencer)
    (h : takeInput i s = .next t) : t.control = s.control := by
  cases i with
  | host w => exact exec_control_of_busy hp (unlessReserved_next h).2
  | consumer idx =>
    obtain rfl := Host.Outcome.next.inj (unlessReserved_next h).2
    rfl
  | reset => exact absurd rfl hreset
  | sequencer => exact absurd rfl hseq

/-! ### Reset (R230, R231) -/

theorem takeReset_flag (s : State) (e : ErrorFlag) : (takeReset s).flag e = false := reset_flag e

theorem takeReset_freq_get (s : State) (i : Sym) : (takeReset s).freq[i] = .unwritten := reset_freq_get i

/-- A reset invalidates the store as an accepted BUILD does, so that every entry reads 0 (R230, 40_host_operations.md
R104). -/
theorem takeReset_node (s : State) (n : NodeId) :
    (takeReset s).nodes[n].valid = false ∧ (takeReset s).nodes[n].queued = false ∧
      link (takeReset s) n = 0#32 ∧ weight (takeReset s) n = 0#32 :=
  acknowledge_startBuild_node s n

end Sys2Proof.Machine
end

section
namespace Sys2Proof
open Machine

/-- Settles O36: the moves of a host or a consumer leave a busy block's control registers, on which the enabled step
depends. -/
theorem enabledStepStaysEnabled : Obligations.EnabledStepStaysEnabled := by
  rintro s t i e he ⟨hreset, hseq⟩ h
  have hc : t.control = s.control := takeInput_control_of_busy (phase_ne_idle_of_enabledStep he) hreset hseq h
  exact (enabledStep_congr hc).trans he

/-- Settles O12: reset is served in every phase, and sets the registers, FREQ and the node store as `takeReset` says. -/
theorem resetTransitionClearsState : Obligations.ResetTransitionClearsState :=
  fun s rest hi => ⟨takeReset { s with inputs := rest }, step_of_reset hi, rfl, rfl, rfl, rfl, takeReset_flag _,
    takeReset_node _, takeReset_freq_get _, rfl, rfl⟩

/-- Settles O22: the busy check fails in all three. -/
theorem busyOperationsOnlyRaiseErrBusy : Obligations.BusyOperationsOnlyRaiseErrBusy :=
  fun _ hp => ⟨exec_cmdBuild_of_busy hp, exec_cmdClearf_of_busy hp, exec_wrFreq_of_busy hp⟩

end Sys2Proof
end
